-- ==== Sys2Proof/Word.lean ====
section
/-! DEFINITION. The word types of the block (spec/10_state.md R25): bytes, coordinates, the scroll
phase and the 256-bit key bitmap. -/

namespace Sys2Proof

/-- One byte: every field of every report and every response is made of these (R62, R9). -/
abbrev Byte := BitVec 8

/-- A mouse coordinate or a screen bound, 0..65535 (R40, R7: `MX`, `MY`, `P_W`, `P_H`). -/
abbrev Coord := BitVec 16

/-- The scroll phase `PHASE`, 4 bits (R25 S10). -/
abbrev Phase := BitVec 4

/-- A set of usage codes, one bit per code 0..255 (R30: `KEYMAP`; R125: `W` and `OBS`). -/
abbrev KeySet := BitVec 256

end Sys2Proof
end

