-- ==== Sys2Proof/Config.lean ====
section
/-! DEFINITION. The configuration of the block (spec/00_scope.md R7): the parameters sampled when
reset is released, as a record the machine takes as data, and the free values of the model, those of the
arbitration between the two ports (spec/20_memory.md R63, R67; spec/60_exceptions.md R287). The default values and the bit
positions stand in Machine/Tables.lean. -/

namespace Sys2Proof

/-- The two ports of the block (R2, R91). -/
inductive Port where
  | producer
  | consumer
  deriving DecidableEq, Repr, Inhabited

/-- The 16 feature flags (R22), named as the spec names them without `FF_`. -/
inductive Feature where
  | arrows
  | insert
  | home
  | endKey
  | pageUp
  | pageDown
  | printScreen
  | capsLock
  | numLock
  | scrollLock
  | keypad
  | fKeys
  | ctrl
  | alt
  | gui
  | esc
  deriving DecidableEq, Repr

/-- The 29 keys that have an extended output code (R170). `fkey 0` is F1, `fkey 11` is F12. -/
inductive XKey where
  | right
  | left
  | down
  | up
  | fkey (n : Fin 12)
  | insert
  | home
  | endKey
  | pageUp
  | pageDown
  | printScreen
  | lCtrl
  | lAlt
  | lGui
  | rCtrl
  | rAlt
  | rGui
  | shiftTab
  deriving DecidableEq, Repr

/-- The six latched modifiers, in the order of `MODBIT` (R31): j = 0 is `lCtrl`, j = 5 is `rGui`. -/
inductive Modifier where
  | lCtrl
  | lAlt
  | lGui
  | rCtrl
  | rAlt
  | rGui
  deriving DecidableEq, Repr

/-- `P_KB_COMMIT`, the reading of the key-bitmap commit (R7, R125, R130 to R132). -/
inductive KbCommit where
  | scanSet
  | literalAnd
  deriving DecidableEq, Repr

/-- `P_PHANTOM_SCOPE`, the slots the rollover check reads (R7, R120). -/
inductive PhantomScope where
  | allSlots
  | untilZero
  deriving DecidableEq, Repr

/-- `P_KP_OPS_NL_OFF`, the output of keypad / * - + with num-lock off (R7, R161). -/
inductive KpOpsNlOff where
  | silent
  | ascii
  deriving DecidableEq, Repr

/-- The configuration (R7). `P_W` and `P_H` have the domain 0..65535 by their type, and the tables
their number of rows; the domains of `P_N` and `P_XCODE` are `Config.wf` (Machine/Tables.lean). A
table entry `none` is the spec's NONE (R12), which only `P_DIGPUNCT` may hold (U10). -/
structure Config where
  pN : Nat
  pW : Coord
  pH : Coord
  pFF : BitVec 16
  pXcode : Vector Byte 29
  pLetter : Vector (Byte × Byte) 26
  pDigPunct : Vector (Option Byte × Option Byte) 27
  pKeypad : Vector Byte 17
  pDel : Byte
  pKbCommit : KbCommit
  pPhantomScope : PhantomScope
  pKpOpsNlOff : KpOpsNlOff
  deriving DecidableEq, Repr

/-- FREE VALUE (DESIGN CHOICE of the form, log entry 2). The port the first decision between two pending
commands serves: which one goes next is free (R63, R67 (e), R287), so nothing constrains this. -/
opaque Config.arbiterFirst : Port

/-- FREE VALUE (DESIGN CHOICE of the form, log entry 2). How many decisions more than one the k-th run of
decisions for one port has, before the next run serves the other port. Nothing constrains the numbers;
that they are numbers is the weak fairness of R287. -/
opaque Config.arbiterRun : Nat → Nat

end Sys2Proof
end

