-- ==== Sys2Proof/Machine/Tables.lean ====
section
/-! DEFINITION. Numbers of the spec that the rules refer to by name: the positions of the feature
flags (spec/10_state.md R22, R23), the usage codes (spec/41_keyboard_lut.md R151), the entries of
`P_XCODE` (R170), the modifier tables of the modifier pass (spec/40_keyboard.md R115), and the
default configuration (spec/00_scope.md R7). -/

namespace Sys2Proof

/-! ### Feature flags -/

/-- The bit of a feature flag in `P_FF` (R22). -/
def Feature.bit : Feature → Nat
  | .arrows => 0
  | .insert => 1
  | .home => 2
  | .endKey => 3
  | .pageUp => 4
  | .pageDown => 5
  | .printScreen => 6
  | .capsLock => 7
  | .numLock => 8
  | .scrollLock => 9
  | .keypad => 10
  | .fKeys => 11
  | .ctrl => 12
  | .alt => 13
  | .gui => 14
  | .esc => 15

/-- `P_FF[flag]` (R22): 1 is enabled. -/
def Config.enabled (c : Config) (f : Feature) : Bool := c.pFF.getLsbD f.bit

/-! ### Extended output codes -/

/-- The row of a key in `P_XCODE`, in the order of R170. -/
def XKey.index : XKey → Fin 29
  | .right => 0
  | .left => 1
  | .down => 2
  | .up => 3
  | .fkey n => ⟨4 + n.val, by omega⟩
  | .insert => 16
  | .home => 17
  | .endKey => 18
  | .pageUp => 19
  | .pageDown => 20
  | .printScreen => 21
  | .lCtrl => 22
  | .lAlt => 23
  | .lGui => 24
  | .rCtrl => 25
  | .rAlt => 26
  | .rGui => 27
  | .shiftTab => 28

/-- `P_XCODE[key]` (R14, R170). -/
def Config.xcode (c : Config) (k : XKey) : Byte := c.pXcode[k.index]

/-! ### Modifiers -/

/-- The six latched modifiers in the order of the modifier pass, j = 0 to 5 (R116). -/
def Modifier.all : List Modifier := [.lCtrl, .lAlt, .lGui, .rCtrl, .rAlt, .rGui]

/-- `MODBIT[j]`, the modifier's bit in the modifier byte (R31, R81). -/
def Modifier.bit : Modifier → Nat
  | .lCtrl => 0
  | .lAlt => 2
  | .lGui => 3
  | .rCtrl => 4
  | .rAlt => 6
  | .rGui => 7

/-- `MODFLAG[j]`, the feature flag of the modifier's category (R115). -/
def Modifier.feature : Modifier → Feature
  | .lCtrl => .ctrl
  | .lAlt => .alt
  | .lGui => .gui
  | .rCtrl => .ctrl
  | .rAlt => .alt
  | .rGui => .gui

/-- `MODKEY[j]`, the key whose extended code the modifier emits (R115). -/
def Modifier.key : Modifier → XKey
  | .lCtrl => .lCtrl
  | .lAlt => .lAlt
  | .lGui => .lGui
  | .rCtrl => .rCtrl
  | .rAlt => .rAlt
  | .rGui => .rGui

/-! ### Usage codes (R151; all but 0x00, 0x01 and 0x04 are the spec's general knowledge, G1; PRESUMED,
log entry 10) -/

abbrev U_EMPTY : Byte := 0x00
abbrev U_ROLLOVER : Byte := 0x01
abbrev U_A : Byte := 0x04
abbrev U_Z : Byte := 0x1D
abbrev U_1 : Byte := 0x1E
abbrev U_ENTER : Byte := 0x28
abbrev U_ESC : Byte := 0x29
abbrev U_TAB : Byte := 0x2B
abbrev U_SLASH : Byte := 0x38
abbrev U_CAPSLOCK : Byte := 0x39
abbrev U_F1 : Byte := 0x3A
abbrev U_F12 : Byte := 0x45
abbrev U_PRINTSCREEN : Byte := 0x46
abbrev U_SCROLLLOCK : Byte := 0x47
abbrev U_PAUSE : Byte := 0x48
abbrev U_INSERT : Byte := 0x49
abbrev U_HOME : Byte := 0x4A
abbrev U_PAGEUP : Byte := 0x4B
abbrev U_DELETE : Byte := 0x4C
abbrev U_END : Byte := 0x4D
abbrev U_PAGEDOWN : Byte := 0x4E
abbrev U_RIGHT : Byte := 0x4F
abbrev U_LEFT : Byte := 0x50
abbrev U_DOWN : Byte := 0x51
abbrev U_UP : Byte := 0x52
abbrev U_NUMLOCK : Byte := 0x53
abbrev U_KP_SLASH : Byte := 0x54
abbrev U_KP_STAR : Byte := 0x55
abbrev U_KP_MINUS : Byte := 0x56
abbrev U_KP_PLUS : Byte := 0x57
abbrev U_KP_ENTER : Byte := 0x58
abbrev U_KP_1 : Byte := 0x59
abbrev U_KP_2 : Byte := 0x5A
abbrev U_KP_3 : Byte := 0x5B
abbrev U_KP_4 : Byte := 0x5C
abbrev U_KP_5 : Byte := 0x5D
abbrev U_KP_6 : Byte := 0x5E
abbrev U_KP_7 : Byte := 0x5F
abbrev U_KP_8 : Byte := 0x60
abbrev U_KP_9 : Byte := 0x61
abbrev U_KP_0 : Byte := 0x62
abbrev U_KP_DOT : Byte := 0x63
abbrev U_KP_EQUAL : Byte := 0x67

/-! ### The default configuration (R7) -/

/-- `P_XCODE`, default (R170): the 29 codes 0x80..0x9C in the table's order. -/
def defaultXcode : Vector Byte 29 :=
  #v[0x80, 0x81, 0x82, 0x83, 0x84, 0x85, 0x86, 0x87, 0x88, 0x89, 0x8A, 0x8B, 0x8C, 0x8D, 0x8E,
     0x8F, 0x90, 0x91, 0x92, 0x93, 0x94, 0x95, 0x96, 0x97, 0x98, 0x99, 0x9A, 0x9B, 0x9C]

/-- `P_LETTER`, default (R166): unshifted lower case, shifted capital. -/
def defaultLetter : Vector (Byte × Byte) 26 :=
  #v[(0x61, 0x41), (0x62, 0x42), (0x63, 0x43), (0x64, 0x44), (0x65, 0x45), (0x66, 0x46),
     (0x67, 0x47), (0x68, 0x48), (0x69, 0x49), (0x6A, 0x4A), (0x6B, 0x4B), (0x6C, 0x4C),
     (0x6D, 0x4D), (0x6E, 0x4E), (0x6F, 0x4F), (0x70, 0x50), (0x71, 0x51), (0x72, 0x52),
     (0x73, 0x53), (0x74, 0x54), (0x75, 0x55), (0x76, 0x56), (0x77, 0x57), (0x78, 0x58),
     (0x79, 0x59), (0x7A, 0x5A)]

/-- `P_DIGPUNCT`, default (R167): rows 0x1E..0x38, unshifted and shifted; `none` is NONE. -/
def defaultDigPunct : Vector (Option Byte × Option Byte) 27 :=
  #v[(some 0x31, some 0x21), (some 0x32, some 0x40), (some 0x33, some 0x23),
     (some 0x34, some 0x24), (some 0x35, some 0x25), (some 0x36, some 0x5E),
     (some 0x37, some 0x26), (some 0x38, some 0x2A), (some 0x39, some 0x28),
     (some 0x30, some 0x29), (some 0x0D, some 0x0D), (some 0x1B, some 0x1B),
     (some 0x08, some 0x08), (some 0x09, some 0x09), (some 0x20, some 0x20),
     (some 0x2D, some 0x5F), (some 0x3D, some 0x2B), (some 0x5B, some 0x7B),
     (some 0x5D, some 0x7D), (some 0x5C, some 0x7C), (none, none),
     (some 0x3B, some 0x3A), (some 0x27, some 0x22), (some 0x60, some 0x7E),
     (some 0x2C, some 0x3C), (some 0x2E, some 0x3E), (some 0x2F, some 0x3F)]

/-- `P_KEYPAD`, default (R168): rows 0x54..0x63, then 0x67. -/
def defaultKeypad : Vector Byte 17 :=
  #v[0x2F, 0x2A, 0x2D, 0x2B, 0x0D, 0x31, 0x32, 0x33, 0x34, 0x35, 0x36, 0x37, 0x38, 0x39, 0x30,
     0x2E, 0x3D]

/-- Every parameter at the default of R7. -/
def Config.default : Config where
  pN := 8
  pW := 640
  pH := 480
  pFF := 0x05FF
  pXcode := defaultXcode
  pLetter := defaultLetter
  pDigPunct := defaultDigPunct
  pKeypad := defaultKeypad
  pDel := 0x7F
  pKbCommit := .scanSet
  pPhantomScope := .allSlots
  pKpOpsNlOff := .silent

/-- The domains of the parameters that their types do not give (R7; U10): `P_N` in 2..256 and every
entry of `P_XCODE` in 0x80..0x9C. -/
def Config.wf (c : Config) : Bool :=
  decide (2 ≤ c.pN) && decide (c.pN ≤ 256) &&
    c.pXcode.toList.all (fun b => decide (0x80 ≤ b.toNat) && decide (b.toNat ≤ 0x9C))

/-- The screen centre along one axis, `floor(lim / 2)` (R40). -/
def screenCentre (lim : Coord) : Coord := BitVec.ofNat 16 (lim.toNat / 2)

end Sys2Proof
end

