-- ==== Sys2Proof/Syntax.lean ====
section
/-! DEFINITION. The six commands of the block (spec/30_encoding.md R88), one constructor per row of
spec/opcode_table.json. -/

namespace Sys2Proof

/-- A command. A report command carries its payload `report[0..L-1]`; the length byte `L` (R86) is
the payload's length, which `Instr.wf` bounds by 255. The consumer commands have no operands (R90). -/
inductive Instr where
  | kbdReport (report : List Byte)
  | msReport (report : List Byte)
  | kbdPoll
  | kbdRead
  | msPoll
  | msRead
  deriving DecidableEq, Repr

end Sys2Proof
end

