-- ==== Sys2Proof/Machine/State.lean ====
section
/-! DEFINITION. The state of the block (spec/10_state.md R25, S0 to S13), the configuration sampled
at reset (R21), and what the outside world has yet to present and has been given (the two agents of
spec/60_exceptions.md R285, R286, the reset input of spec/70_reset_and_hazards.md R300, and the
output trace of R289). -/

namespace Sys2Proof.Machine

open Sys2Proof

/-- The reasons a run stops with a fault: there are none. The block takes no exceptions and no traps,
and never halts (R270, R290), so this type has no constructor and no step can answer a fault. -/
inductive Fault where
  deriving DecidableEq, Repr

/-- Why the model gives a run no meaning (R272, U1 to U3, U10). Each is safe: a refused run proves
nothing. -/
inductive Refusal where
  /-- Raised by exec for a command that has no meaning yet; no arm of this model does. Safe. -/
  | notModelled (mnemonic : String)
  /-- RESERVED_OPCODE: raised by the fetch when the byte stream of the served port begins with one of
  the 250 reserved opcodes (R92, U1, U3). Safe. -/
  | reservedOpcode (op : Byte)
  /-- WRONG_PORT: raised by the fetch when a command stands at the port it is not valid at (R91, U2).
  Safe. -/
  | wrongPort (i : Instr)
  /-- Raised when reset is released with a parameter outside its domain (R7, U10). Safe. -/
  | configOutOfDomain
  deriving DecidableEq, Repr

/-- `MODLATCH[0..5]`, one latch per modifier (R31). -/
structure ModLatch where
  lCtrl : Bool
  lAlt : Bool
  lGui : Bool
  rCtrl : Bool
  rAlt : Bool
  rGui : Bool
  deriving DecidableEq, Repr

/-- The five bytes of a mouse snapshot (R84): `SNAP[0]` .. `SNAP[4]` and `COPY[0]` .. `COPY[4]`. -/
structure Snapshot where
  b0 : Byte
  b1 : Byte
  b2 : Byte
  b3 : Byte
  b4 : Byte
  deriving DecidableEq, Repr

/-- One event the block gives the outside world: the response of a consumer command (R86), or a byte
on the LED output (R141). -/
inductive Output where
  | response (bytes : List Byte)
  | led (v : Byte)
  deriving DecidableEq, Repr

/-- The reset input (R300), one piece at a time: not asserted for one step, or a pulse. A pulse is asserted
for `held` more steps and is then released, in one step more, with the configuration sampled there (R21).
So reset never stops being asserted without the release that samples and resets (DESIGN CHOICE of the form,
log entry 8). -/
inductive ResetInput where
  | inactive
  | pulse (held : Nat) (c : Config)
  deriving DecidableEq, Repr

/-- The state. The first group is the configuration (R21) and the elements S0 to S13 of R25; the second
is the model's own: the outside world's side of the ports, the reset input and the LED output (DESIGN
CHOICE, log entries 2, 4, 7 and 8). The configuration is held here as plain data (log entry 1). -/
structure State where
  /-- the configuration sampled when reset was released (R21) -/
  cfg : Config
  /-- S0 `KEYMAP`: bit c is usage code c (R30) -/
  keymap : KeySet
  /-- S1 `MODLATCH` -/
  modlatch : ModLatch
  /-- S2 `NUM_LOCK` -/
  numLock : Bool
  /-- S3 `CAPS_LOCK` -/
  capsLock : Bool
  /-- S4 `SCROLL_LOCK` -/
  scrollLock : Bool
  /-- S5 `LED_LAST` -/
  ledLast : Byte
  /-- S6 `OBUF[0..P_N-1]`, index 0 first -/
  obuf : List Byte
  /-- S7 `KB_UPDATED` -/
  kbUpdated : Bool
  /-- S8 `MX` -/
  mx : Coord
  /-- S9 `MY` -/
  my : Coord
  /-- S10 `PHASE` -/
  phase : Phase
  /-- S11 `BTN` -/
  btn : Byte
  /-- S12 `SNAP` -/
  snap : Snapshot
  /-- S13 `COPY` -/
  copy : Snapshot
  /-- the bytes the producer has yet to present at its port (R285), next first -/
  producerIn : List Byte
  /-- the bytes the consumer has yet to present at its port (R286), next first -/
  consumerIn : List Byte
  /-- the reset input from the next step on; where the list has ended reset is not asserted (R300) -/
  resetIn : List ResetInput
  /-- how many decisions between two pending commands have been taken, which is what the free values
  `Config.arbiterFirst` and `Config.arbiterRun` are asked about (R287) -/
  arbCount : Nat
  /-- every response returned and LED byte presented so far, in command order (R289, R290) -/
  out : List Output
  deriving DecidableEq, Repr

/-- All latches clear (R31). -/
abbrev ModLatch.clear : ModLatch := ⟨false, false, false, false, false, false⟩

/-- Five zero bytes (R41, R42). -/
abbrev Snapshot.zero : Snapshot := ⟨0, 0, 0, 0, 0⟩

/-- The state after reset is released with configuration `c` (R25, R300), nothing presented at either
port and nothing output. -/
def State.resetWith (c : Config) : State where
  cfg := c
  keymap := 0
  modlatch := ModLatch.clear
  numLock := false
  capsLock := false
  scrollLock := false
  ledLast := 0
  obuf := List.replicate c.pN 0
  kbUpdated := false
  mx := screenCentre c.pW
  my := screenCentre c.pH
  phase := 0
  btn := 0
  snap := Snapshot.zero
  copy := Snapshot.zero
  producerIn := []
  consumerIn := []
  resetIn := []
  arbCount := 0
  out := []

/-- The machine right after reset, with every parameter of R7 at its default (DESIGN CHOICE, log entries
1 and 9). -/
def State.reset : State := State.resetWith Config.default

end Sys2Proof.Machine
end

