-- ==== Sys2Proof/Machine/Ops.lean ====
section
/-! DEFINITION. The named operations on the state: the latches, the key sets, the Output Buffer append
(spec/43_output_buffer.md R231), the outputs of spec/00_scope.md R12 (`EmitLED`, `Respond`, `Reject`),
the snapshot layout (spec/30_encoding.md R84) and reset (spec/70_reset_and_hazards.md R300). The block
takes no exceptions (spec/60_exceptions.md R270), so there is no exception entry and no return. -/

namespace Sys2Proof.Machine

open Sys2Proof

/-! ### Key sets (R30, R125) -/

/-- `set[c]`. -/
def keyIn (set : KeySet) (c : Byte) : Bool := set.getLsbD c.toNat

/-- `set[c] <- 1`. -/
def keySet (set : KeySet) (c : Byte) : KeySet := set ||| (1#256 <<< c.toNat)

/-- Segment `s` of a key set, `set[8s+7 : 8s]`, so that code c is bit `c & 7` of segment `c >> 3` (R30). -/
def segment (set : KeySet) (s : Nat) : Byte := set.extractLsb' (8 * s) 8

/-! ### Modifier latches (R31) -/

/-- `MODLATCH[j]`. -/
def ModLatch.get (l : ModLatch) : Modifier → Bool
  | .lCtrl => l.lCtrl
  | .lAlt => l.lAlt
  | .lGui => l.lGui
  | .rCtrl => l.rCtrl
  | .rAlt => l.rAlt
  | .rGui => l.rGui

/-- `MODLATCH[j] <- v`. -/
def ModLatch.put (l : ModLatch) (j : Modifier) (v : Bool) : ModLatch :=
  match j with
  | .lCtrl => { l with lCtrl := v }
  | .lAlt => { l with lAlt := v }
  | .lGui => { l with lGui := v }
  | .rCtrl => { l with rCtrl := v }
  | .rAlt => { l with rAlt := v }
  | .rGui => { l with rGui := v }

/-- `MODLATCH[j] <- v` in the state. -/
def State.setLatch (s : State) (j : Modifier) (v : Bool) : State :=
  { s with modlatch := s.modlatch.put j v }

/-! ### The Output Buffer (R231) -/

/-- The buffer after one append: element 0 counts modulo 256, the codes move up by one index, the
oldest is discarded, and `code` stands at index 1 (R231, R232). An empty buffer, which no run reaches,
stays empty (DESIGN CHOICE, log entry 14). -/
def obufAppend (buf : List Byte) (code : Byte) : List Byte :=
  match buf with
  | [] => []
  | n :: hist => (n + 1) :: (code :: hist).take hist.length

/-- `Append(code)`: the buffer takes the code and `KB_UPDATED` is set (R231). -/
def State.append (s : State) (code : Byte) : State :=
  { s with obuf := obufAppend s.obuf code, kbUpdated := true }

/-- `Append` of a table entry: NONE appends nothing (R12). -/
def State.appendEntry (s : State) : Option Byte → State
  | some code => s.append code
  | none => s

/-! ### Outputs (R12) -/

/-- `EmitLED(v)`: one event on the LED output (R141, R289). -/
def State.emitLed (s : State) (v : Byte) : State := { s with out := s.out ++ [.led v] }

/-- `Respond(b0, ..., bk)`: the response returned on the consumer port (R86). -/
def State.respond (s : State) (bytes : List Byte) : State := { s with out := s.out ++ [.response bytes] }

/-- `Reject(MALFORMED_LENGTH)`: no state change, no LED byte and no response (R271). -/
def State.reject (s : State) : State := s

/-! ### The mouse snapshot (R84) -/

/-- `lo8(v)` (R10). -/
def lo8 (v : Coord) : Byte := v.extractLsb' 0 8

/-- `hi8(v)` (R10). -/
def hi8 (v : Coord) : Byte := v.extractLsb' 8 8

/-- `(BTN & 0x0F) | (PHASE << 4)` (R209). -/
def packButtons (btn : Byte) (phase : Phase) : Byte := (btn &&& 0x0F) ||| (phase.setWidth 8 <<< 4)

/-- The five bytes of the layout of R84. -/
def packSnapshot (btn : Byte) (phase : Phase) (mx my : Coord) : Snapshot :=
  ⟨packButtons btn phase, lo8 mx, hi8 mx, lo8 my, hi8 my⟩

/-- The five bytes, index 0 first (R86). -/
def Snapshot.bytes (p : Snapshot) : List Byte := [p.b0, p.b1, p.b2, p.b3, p.b4]

/-- `exists k in 0..4 with SNAP[k] != COPY[k]`, byte for byte (R254, R255). -/
def Snapshot.differs (p q : Snapshot) : Bool :=
  p.b0 != q.b0 || p.b1 != q.b1 || p.b2 != q.b2 || p.b3 != q.b3 || p.b4 != q.b4

/-! ### Ports and reset -/

/-- The other port. -/
def otherPort : Port → Port
  | .producer => .consumer
  | .consumer => .producer

/-- The bytes yet to be presented at a port. -/
def State.portIn (s : State) : Port → List Byte
  | .producer => s.producerIn
  | .consumer => s.consumerIn

/-- The same with those bytes replaced. -/
def State.setPortIn (s : State) (p : Port) (bs : List Byte) : State :=
  match p with
  | .producer => { s with producerIn := bs }
  | .consumer => { s with consumerIn := bs }

/-- Reset released: the configuration is sampled and every element S0 to S13 takes its reset value
(R300). What the agents have yet to present, the reset input, the arbitration count and the output
trace are the outside world's and stay (DESIGN CHOICE, log entry 8). -/
def State.release (s : State) (c : Config) : State :=
  { State.resetWith c with
    producerIn := s.producerIn, consumerIn := s.consumerIn, resetIn := s.resetIn,
    arbCount := s.arbCount, out := s.out }

end Sys2Proof.Machine
end

