-- ==== Sys2Proof/Machine/Flags.lean ====
section
/-! DEFINITION. The status the block computes or keeps (spec/10_state.md R27): the one status bit
`KB_UPDATED`, the LED byte (spec/40_keyboard.md R140), and the byte `bool(b)` of a poll's answer. It has
no condition codes and no arithmetic flags. -/

namespace Sys2Proof.Machine

open Sys2Proof

/-- `bool(b)` as a byte: 0x01 or 0x00 (R10). -/
def boolByte (b : Bool) : Byte := if b then 1 else 0

/-- `KB_UPDATED <- 0` (R250); `State.append` is the only operation that sets it (R251). -/
def State.clearUpdated (s : State) : State := { s with kbUpdated := false }

/-- `NUM_LOCK | (CAPS_LOCK << 1) | (SCROLL_LOCK << 2)` (R140). -/
def ledByte (num caps scroll : Bool) : Byte :=
  boolByte num ||| (boolByte caps <<< 1) ||| (boolByte scroll <<< 2)

/-- The LED byte of a state's lock bits (R140). -/
def State.led (s : State) : Byte := ledByte s.numLock s.capsLock s.scrollLock

end Sys2Proof.Machine
end

