-- ==== Sys2Proof/Machine/ChangeDetector.lean ====
section
/-! DEFINITION. The Change Detector (spec/44_change_detector.md): KBD_POLL and MS_POLL. -/

namespace Sys2Proof.Machine

open Sys2Proof

/-- KBD_POLL (R250): answers KB_UPDATED and clears it in one step. -/
def execKbdPoll (s : State) : Host.Outcome State Fault Refusal :=
  .next (s.clearUpdated.respond [boolByte s.kbUpdated])

/-- MS_POLL (R254): answers whether SNAP differs from COPY and copies SNAP in one step. -/
def execMsPoll (s : State) : Host.Outcome State Fault Refusal :=
  .next ({ s with copy := s.snap }.respond [boolByte (s.snap.differs s.copy)])

end Sys2Proof.Machine
end

