-- ==== Sys2Proof/Machine/Operands.lean ====
section
/-! DEFINITION. The operands of the report commands: their fields by the data formats of
spec/30_encoding.md R81 to R83, R90. The consumer commands have no operands. -/

namespace Sys2Proof.Machine

open Sys2Proof

/-- The fields of a keyboard report (R81): the modifier byte, the reserved byte, and the six slots in
order. -/
structure KbdFields where
  mods : Byte
  reserved : Byte
  slots : List Byte
  deriving DecidableEq, Repr

/-- The fields of a keyboard report of 8 bytes; any other length has none (R81, R111). -/
def kbdFields : List Byte → Option KbdFields
  | [m, r, k0, k1, k2, k3, k4, k5] => some ⟨m, r, [k0, k1, k2, k3, k4, k5]⟩
  | _ => none

/-- The fields of a mouse report (R82, R83); the 3-byte form has no scroll delta. -/
structure MsFields where
  buttons : Byte
  dx : Byte
  dy : Byte
  scroll : Option Byte
  deriving DecidableEq, Repr

/-- The fields of the 3-byte form `[buttons, dx, dy]` and of the 6-byte form
`[buttons, dx, reserved, dy, reserved, scroll]`; any other length has none (R82, R83, R201). -/
def msFields : List Byte → Option MsFields
  | [b, dx, dy] => some ⟨b, dx, dy, none⟩
  | [b, dx, _, dy, _, sc] => some ⟨b, dx, dy, some sc⟩
  | _ => none

/-- `sext_8(b)`: b if b < 0x80, else b - 256 (R10). -/
def sext8 (b : Byte) : Int := if b.toNat < 0x80 then (b.toNat : Int) else (b.toNat : Int) - 256

/-- `shift = m[1] | m[5]` (R121). -/
def shiftPressed (m : Byte) : Bool := m.getLsbD 1 || m.getLsbD 5

end Sys2Proof.Machine
end

