-- ==== Sys2Proof/Machine/Routing.lean ====
section
/-! DEFINITION. Key routing, the lock-key state machines and the usage-code lookup tables
(spec/41_keyboard_lut.md): `Route(c, shift)`. Each category but the lock keys is written as the code it
appends, `none` where it appends nothing. -/

namespace Sys2Proof.Machine

open Sys2Proof

/-! ### Lock keys (R155) -/

/-- `c in {U_NUMLOCK, U_CAPSLOCK, U_SCROLLLOCK}`. -/
def isLockKey (c : Byte) : Bool := c == U_NUMLOCK || c == U_CAPSLOCK || c == U_SCROLLLOCK

/-- LockKey: the enabled lock key flips its bit; nothing is appended (R155). -/
def lockKey (c : Byte) (s : State) : State :=
  if c = U_NUMLOCK then
    if s.cfg.enabled .numLock then { s with numLock := !s.numLock } else s
  else if c = U_CAPSLOCK then
    if s.cfg.enabled .capsLock then { s with capsLock := !s.capsLock } else s
  else if c = U_SCROLLLOCK then
    if s.cfg.enabled .scrollLock then { s with scrollLock := !s.scrollLock } else s
  else s

/-! ### Navigation keys (R156) -/

/-- NAV: the key and the flag of each navigation usage code (R156). -/
def navTable : List (Byte × XKey × Feature) :=
  [(U_RIGHT, .right, .arrows), (U_LEFT, .left, .arrows), (U_DOWN, .down, .arrows),
   (U_UP, .up, .arrows), (U_INSERT, .insert, .insert), (U_HOME, .home, .home),
   (U_END, .endKey, .endKey), (U_PAGEUP, .pageUp, .pageUp), (U_PAGEDOWN, .pageDown, .pageDown),
   (U_PRINTSCREEN, .printScreen, .printScreen)]

/-- NavKey: the key's code if its flag is enabled (R156). -/
def navKey (cfg : Config) (key : XKey) (flag : Feature) : Option Byte :=
  if cfg.enabled flag then some (cfg.xcode key) else none

/-! ### Letters (R165) -/

/-- The row `c - 0x04` of `P_LETTER` for U_A .. U_Z. -/
def letterRow (c : Byte) : Option (Fin 26) :=
  if h : 0x04 ≤ c.toNat ∧ c.toNat ≤ 0x1D then some ⟨c.toNat - 0x04, by omega⟩ else none

/-- Letter: column `shift ^ CAPS_LOCK` (R165). -/
def letter (cfg : Config) (caps shift : Bool) (row : Fin 26) : Byte :=
  if shift ^^ caps then cfg.pLetter[row].2 else cfg.pLetter[row].1

/-! ### Digits and punctuation (R159) -/

/-- The row `c - 0x1E` of `P_DIGPUNCT` for U_1 .. U_SLASH. -/
def digPunctRow (c : Byte) : Option (Fin 27) :=
  if h : 0x1E ≤ c.toNat ∧ c.toNat ≤ 0x38 then some ⟨c.toNat - 0x1E, by omega⟩ else none

/-- DigPunct: column `shift`; the escape key is gated by FF_ESC (R159, R160). -/
def digPunct (cfg : Config) (shift : Bool) (c : Byte) (row : Fin 27) : Option Byte :=
  if c = U_ESC ∧ cfg.enabled .esc = false then none
  else if shift then cfg.pDigPunct[row].2 else cfg.pDigPunct[row].1

/-! ### Keypad (R161, R162) -/

/-- The row of `P_KEYPAD` for the set KEYPAD, 0x54..0x63 and 0x67 (R161, R168). -/
def keypadRow (c : Byte) : Option (Fin 17) :=
  if h : 0x54 ≤ c.toNat ∧ c.toNat ≤ 0x63 then some ⟨c.toNat - 0x54, by omega⟩
  else if c = U_KP_EQUAL then some 16 else none

/-- KPNAV: the navigation equivalent of a keypad key, `none` for the delete code, which has no flag of
its own (R162). -/
def kpNavTable : List (Byte × Option (XKey × Feature)) :=
  [(U_KP_0, some (.insert, .insert)), (U_KP_1, some (.endKey, .endKey)),
   (U_KP_2, some (.down, .arrows)), (U_KP_3, some (.pageDown, .pageDown)),
   (U_KP_4, some (.left, .arrows)), (U_KP_6, some (.right, .arrows)),
   (U_KP_7, some (.home, .home)), (U_KP_8, some (.up, .arrows)),
   (U_KP_9, some (.pageUp, .pageUp)), (U_KP_DOT, none)]

/-- Keypad (R161): shift is not read. -/
def keypad (cfg : Config) (num : Bool) (c : Byte) (row : Fin 17) : Option Byte :=
  if cfg.enabled .keypad = false then none
  else if c = U_KP_ENTER ∨ c = U_KP_EQUAL ∨ c = U_KP_5 then some cfg.pKeypad[row]
  else if num then some cfg.pKeypad[row]
  else match kpNavTable.lookup c with
    | some (some (key, flag)) => navKey cfg key flag
    | some none => some cfg.pDel
    | none =>
      match cfg.pKpOpsNlOff with
      | .ascii => some cfg.pKeypad[row]
      | .silent => none

/-! ### Function keys (R163) -/

/-- The offset from F1 for U_F1 .. U_F12. -/
def fkeyRow (c : Byte) : Option (Fin 12) :=
  if h : 0x3A ≤ c.toNat ∧ c.toNat ≤ 0x45 then some ⟨c.toNat - 0x3A, by omega⟩ else none

/-- FKey: `P_XCODE[F1 + n]` if FF_FKEYS is enabled (R163). -/
def fKey (cfg : Config) (n : Fin 12) : Option Byte :=
  if cfg.enabled .fKeys then some (cfg.xcode (.fkey n)) else none

/-! ### Route (R150) -/

/-- The code a usage code that is no lock key appends, by the categories of R150 in their order; `none`
where it appends nothing, among them every unmapped code (R164). -/
def keyCode (cfg : Config) (num caps shift : Bool) (c : Byte) : Option Byte :=
  match navTable.lookup c with
  | some (key, flag) => navKey cfg key flag
  | none =>
    if c = U_DELETE then some cfg.pDel
    else if c = U_TAB ∧ shift = true then some (cfg.xcode .shiftTab)
    else match letterRow c with
      | some row => some (letter cfg caps shift row)
      | none =>
        match digPunctRow c with
        | some row => digPunct cfg shift c row
        | none =>
          match keypadRow c with
          | some row => keypad cfg num c row
          | none =>
            match fkeyRow c with
            | some n => fKey cfg n
            | none => none

/-- Route (R150): a lock key toggles, any other code appends at most one code. It reads the lock bits as
they stand when it runs (R172). -/
def route (c : Byte) (shift : Bool) (s : State) : State :=
  if isLockKey c then lockKey c s
  else s.appendEntry (keyCode s.cfg s.numLock s.capsLock shift c)

end Sys2Proof.Machine
end

