-- ==== Sys2Proof/Machine/Keyboard.lean ====
section
/-! DEFINITION. The Keyboard Decoder (spec/40_keyboard.md): KBD_REPORT and its phases. -/

namespace Sys2Proof.Machine

open Sys2Proof

/-! ### Modifier pass (R115 to R118) -/

/-- The body of the modifier pass for modifier `j` (R115). -/
def modifierStep (m : Byte) (s : State) (j : Modifier) : State :=
  if m.getLsbD j.bit then
    if s.cfg.enabled j.feature = true ∧ s.modlatch.get j = false then
      (s.append (s.cfg.xcode j.key)).setLatch j true
    else s
  else s.setLatch j false

/-- ModifierPass(m), j = 0 to 5 (R115, R116). -/
def modifierPass (m : Byte) (s : State) : State := Modifier.all.foldl (modifierStep m) s

/-! ### Rollover check (R120) -/

/-- The UNTIL_ZERO reading: the check stops at the first 0x00 (R120). -/
def rolloverUntilZero : List Byte → Bool
  | [] => false
  | c :: cs => if c = U_EMPTY then false else if c = U_ROLLOVER then true else rolloverUntilZero cs

/-- RolloverCheck(report) over the six slots (R120). -/
def rolloverCheck (scope : PhantomScope) (slots : List Byte) : Bool :=
  match scope with
  | .allSlots => slots.any (fun c => c == U_ROLLOVER)
  | .untilZero => rolloverUntilZero slots

/-! ### Key scan and commit (R125 to R133) -/

/-- What the scan carries: the state, and the two sets that exist only during one report (R125). -/
structure Scan where
  st : State
  w : KeySet
  obs : KeySet
  deriving DecidableEq, Repr

/-- The scan's body for one non-zero code: it is observed, and routed if its working bit reads 0. Under
SCAN_SET the working bit is then set (R125). -/
def scanSlot (shift : Bool) (c : Byte) (k : Scan) : Scan :=
  if keyIn k.w c then { k with obs := keySet k.obs c }
  else
    { st := route c shift k.st,
      w := match k.st.cfg.pKbCommit with
        | .scanSet => keySet k.w c
        | .literalAnd => k.w
      obs := keySet k.obs c }

/-- KeyScan over the slots in order, stopping at the first 0x00 (R125, R128). -/
def keyScan (shift : Bool) : List Byte → Scan → Scan
  | [], k => k
  | c :: cs, k => if c = U_EMPTY then k else keyScan shift cs (scanSlot shift c k)

/-- Commit(W, OBS): the bitwise AND, segment by segment, which is the AND of the whole sets (R130; DEDUCED,
log entry 11). -/
def commit (k : Scan) : State := { k.st with keymap := k.w &&& k.obs }

/-! ### LED update (R141) -/

/-- LedUpdate(): the LED byte is presented and remembered if it differs from the last one (R141). -/
def ledUpdate (s : State) : State :=
  if s.led = s.ledLast then s else { s.emitLed s.led with ledLast := s.led }

/-! ### KBD_REPORT (R110) -/

/-- A keyboard report of 8 bytes: modifier pass, rollover check, scan and commit unless the report is a
rollover report, LED update (R110). -/
def kbdAccepted (r : KbdFields) (s : State) : State :=
  let s1 := modifierPass r.mods s
  if rolloverCheck s1.cfg.pPhantomScope r.slots then ledUpdate s1
  else ledUpdate (commit (keyScan (shiftPressed r.mods) r.slots ⟨s1, s1.keymap, 0⟩))

/-- KBD_REPORT (R110). A length other than 8 is rejected (R111). -/
def execKbdReport (report : List Byte) (s : State) : Host.Outcome State Fault Refusal :=
  match kbdFields report with
  | some r => .next (kbdAccepted r s)
  | none => .next s.reject

end Sys2Proof.Machine
end

