-- ==== Sys2Proof/Machine/Mouse.lean ====
section
/-! DEFINITION. The Mouse Decoder (spec/42_mouse.md): MS_REPORT and MS_READ. -/

namespace Sys2Proof.Machine

open Sys2Proof

/-- ClampMove(p, d, lim): the bound enforced is chosen by the sign of the motion (R205). -/
def clampMove (p : Coord) (d : Int) (lim : Coord) : Coord :=
  let n : Int := (p.toNat : Int) + d
  BitVec.ofInt 16 (if 0 < d then min n (lim.toNat : Int) else max n 0)

/-- `(PHASE + s) mod 16` with the non-negative mod (R208, R9). -/
def scrollBy (phase : Phase) (d : Int) : Phase := BitVec.ofInt 4 (((phase.toNat : Int) + d) % 16)

/-- The accumulator after a mouse report (R200): the vertical delta is negated as an integer (R204), and
only the 6-byte form moves the phase (R208, R211). -/
def moveMouse (r : MsFields) (s : State) : State :=
  { s with
    mx := clampMove s.mx (sext8 r.dx) s.cfg.pW
    my := clampMove s.my (-(sext8 r.dy)) s.cfg.pH
    phase := match r.scroll with
      | some sc => scrollBy s.phase (sext8 sc)
      | none => s.phase
    btn := r.buttons }

/-- All five SNAP bytes are written from the accumulator as one publish (R209). -/
def State.publish (s : State) : State := { s with snap := packSnapshot s.btn s.phase s.mx s.my }

/-- MS_REPORT (R200). A length other than 3 or 6 is rejected (R201). -/
def execMsReport (report : List Byte) (s : State) : Host.Outcome State Fault Refusal :=
  match msFields report with
  | some r => .next (moveMouse r s).publish
  | none => .next s.reject

/-- MS_READ (R220): the five SNAP bytes, and no state change. -/
def execMsRead (s : State) : Host.Outcome State Fault Refusal := .next (s.respond s.snap.bytes)

end Sys2Proof.Machine
end

