-- ==== Sys2Proof/Machine/OutputBuffer.lean ====
section
/-! DEFINITION. The Output Encoding Buffer's read (spec/43_output_buffer.md): KBD_READ. Its append is
`State.append` in Ops.lean. -/

namespace Sys2Proof.Machine

open Sys2Proof

/-- KBD_READ (R240): the P_N bytes of OBUF, index 0 first, and no state change. -/
def execKbdRead (s : State) : Host.Outcome State Fault Refusal := .next (s.respond s.obuf)

end Sys2Proof.Machine
end

