-- ==== Sys2Proof/Machine/Dispatch.lean ====
section
/-! DEFINITION. One arm per command of spec/opcode_table.json. -/

namespace Sys2Proof.Machine

open Sys2Proof

def exec (i : Instr) (s : State) : Host.Outcome State Fault Refusal :=
  match i with
  | .kbdReport report => Sys2Proof.Machine.execKbdReport report s
  | .msReport report => Sys2Proof.Machine.execMsReport report s
  | .kbdPoll => Sys2Proof.Machine.execKbdPoll s
  | .kbdRead => Sys2Proof.Machine.execKbdRead s
  | .msPoll => Sys2Proof.Machine.execMsPoll s
  | .msRead => Sys2Proof.Machine.execMsRead s

end Sys2Proof.Machine
end

