-- ==== Sys2Proof/WellFormed.lean ====
section
/-! DEFINITION. Which commands have an encoding: the length byte of a report holds 0..255
(spec/30_encoding.md R86). No other field value is reserved (R92). -/

namespace Sys2Proof

/-- The payload's length fits the length byte `L` (R86). -/
def Instr.wf : Instr → Bool
  | .kbdReport report => decide (report.length ≤ 255)
  | .msReport report => decide (report.length ≤ 255)
  | .kbdPoll => true
  | .kbdRead => true
  | .msPoll => true
  | .msRead => true

end Sys2Proof
end

