-- ==== Sys2Proof/Decode.lean ====
section
/-! DEFINITION. The command framing (spec/30_encoding.md R86, R88, R89): decoding a port's byte
stream, total and rejecting by name, and the encoder. -/

namespace Sys2Proof

/-- Why a byte stream gives no command: it ends before the command is complete, or its first byte is
one of the 250 reserved opcodes (R92). -/
inductive DecodeError where
  | incomplete
  | reservedOpcode (op : Byte)
  deriving DecidableEq, Repr

/-! The opcode map (R88). -/

abbrev opKbdReport : Byte := 0x01
abbrev opMsReport : Byte := 0x02
abbrev opKbdPoll : Byte := 0x10
abbrev opKbdRead : Byte := 0x11
abbrev opMsPoll : Byte := 0x20
abbrev opMsRead : Byte := 0x21

/-- The length byte `L` and then exactly `L` payload bytes; the rest of the stream is the next
command's (R86, R89). `none` where the stream ends before that. -/
def takePayload : List Byte → Option (List Byte × List Byte)
  | [] => none
  | l :: bs => if l.toNat ≤ bs.length then some (bs.take l.toNat, bs.drop l.toNat) else none

/-- A report command from its payload, or `incomplete`. -/
def decodeReport (mk : List Byte → Instr) (bs : List Byte) : Except DecodeError (Instr × List Byte) :=
  match takePayload bs with
  | some (report, rest) => .ok (mk report, rest)
  | none => .error .incomplete

/-- The first command of a port's byte stream and the bytes after it (R89). The length rule holds
whatever `L` is. -/
def decode : List Byte → Except DecodeError (Instr × List Byte)
  | [] => .error .incomplete
  | op :: bs =>
    if op = opKbdReport then decodeReport .kbdReport bs
    else if op = opMsReport then decodeReport .msReport bs
    else if op = opKbdPoll then .ok (.kbdPoll, bs)
    else if op = opKbdRead then .ok (.kbdRead, bs)
    else if op = opMsPoll then .ok (.msPoll, bs)
    else if op = opMsRead then .ok (.msRead, bs)
    else .error (.reservedOpcode op)

/-- The opcode of a command (R88). -/
def Instr.opcode : Instr → Byte
  | .kbdReport _ => opKbdReport
  | .msReport _ => opMsReport
  | .kbdPoll => opKbdPoll
  | .kbdRead => opKbdRead
  | .msPoll => opMsPoll
  | .msRead => opMsRead

/-- The length byte and payload of a report command (R86). -/
def encodePayload (report : List Byte) : List Byte :=
  BitVec.ofNat 8 report.length :: report

/-- The byte string of a command (R86): the opcode, and for a report `L` and the payload. -/
def encode (i : Instr) : List Byte :=
  i.opcode ::
    match i with
    | .kbdReport report => encodePayload report
    | .msReport report => encodePayload report
    | .kbdPoll => []
    | .kbdRead => []
    | .msPoll => []
    | .msRead => []

/-- The one port a command is valid at (R91). -/
def Instr.port : Instr → Port
  | .kbdReport _ => .producer
  | .msReport _ => .producer
  | .kbdPoll => .consumer
  | .kbdRead => .consumer
  | .msPoll => .consumer
  | .msRead => .consumer

/-- The length in bytes of the longest command: an opcode, `L` = 255 and 255 payload bytes (R86). -/
abbrev maxCommandBytes : Nat := 257

/-- The bytes of a word numbered as spec/opcode_table.json numbers it (bit 0 is the lowest bit of
byte 0), followed by zero bytes up to the longest command. -/
def tableWordBytes (nbits w : Nat) : List Byte :=
  let n := (nbits + 7) / 8
  (List.range n).map (fun k => BitVec.ofNat 8 (w >>> (8 * k))) ++ List.replicate (maxCommandBytes - n) 0

/-- The command the decoder reads from such a word. -/
def decodeTableWord (nbits w : Nat) : Option Instr :=
  match decode (tableWordBytes nbits w) with
  | .ok (i, _) => some i
  | .error _ => none

end Sys2Proof
end

