-- ==== Sys2Proof/Machine/Fetch.lean ====
section
/-! DEFINITION. Which command executes next (spec/20_memory.md R63, R67; spec/30_encoding.md R89, R91;
spec/60_exceptions.md R272, R287; spec/70_reset_and_hazards.md R300). The block has no program counter:
the two agents hold the order of commands, and the model keeps what they have yet to present as one byte
stream per port. -/

namespace Sys2Proof.Machine

open Sys2Proof

/-- What a step finds: a command to execute, in the state in which its bytes have been taken from its
port; nothing to execute; or a refusal. -/
inductive Fetched where
  | command (i : Instr) (s : State)
  | quiet (s : State)
  | refused (r : Refusal)
  deriving DecidableEq, Repr

/-- A port has something to serve when its stream begins with a whole command or a reserved opcode; a
command whose bytes are not all there has not been presented (R86; DESIGN CHOICE, log entry 5). -/
def portReady (bs : List Byte) : Bool :=
  match decode bs with
  | .error .incomplete => false
  | _ => true

/-! ### Arbitration (R67, R287)

Any interleaving is possible in which no pending command is held for ever. Such a sequence of decisions
is one of runs, each of at least one decision and of finitely many, for the two ports in turn; the free
values are the first port and the lengths of the runs. -/

/-- Where a sequence of decisions stands: the port it serves, the number of the run, and how many
decisions of the run come after this one. -/
structure Turn where
  port : Port
  run : Nat
  left : Nat
  deriving DecidableEq, Repr

/-- The next decision: of the same run while it lasts, else the first one of the next run, which is the
other port's. -/
def Turn.next (run : Nat → Nat) (t : Turn) : Turn :=
  match t.left with
  | 0 => ⟨otherPort t.port, t.run + 1, run (t.run + 1)⟩
  | n + 1 => { t with left := n }

/-- The n-th decision of the sequence with this first port and these runs. -/
def turnAt (first : Port) (run : Nat → Nat) : Nat → Turn
  | 0 => ⟨first, 0, run 0⟩
  | n + 1 => (turnAt first run n).next run

/-- The n-th decision of the machine. -/
def turn (n : Nat) : Turn := turnAt Config.arbiterFirst Config.arbiterRun n

/-- The port the n-th decision serves. -/
def arbiter (n : Nat) : Port := (turn n).port

/-- The port served next, if any, and the state after the choice. Between two ready ports the choice is
free but for weak fairness (R287): it is the next decision of the arbiter. -/
def choosePort (s : State) : Option (Port × State) :=
  match portReady s.producerIn, portReady s.consumerIn with
  | false, false => none
  | true, false => some (.producer, s)
  | false, true => some (.consumer, s)
  | true, true => some (arbiter s.arbCount, { s with arbCount := s.arbCount + 1 })

/-- The first command at a port: a reserved opcode and a command of the other port are refused before
anything else is looked at (R272, R274). -/
def serve (p : Port) (s : State) : Fetched :=
  match decode (s.portIn p) with
  | .ok (i, rest) => if i.port = p then .command i (s.setPortIn p rest) else .refused (.wrongPort i)
  | .error (.reservedOpcode op) => .refused (.reservedOpcode op)
  | .error .incomplete => .quiet s

/-- The next command of the total order (R67), where reset is not asserted; with none to serve the step
is quiet (DESIGN CHOICE, log entry 3). -/
def arbitrate (s : State) : Fetched :=
  match choosePort s with
  | some (p, t) => serve p t
  | none => .quiet s

/-! ### The reset input (R300) and what a step finds -/

/-- The reset input first: while it is asserted no command executes, and its release samples the
configuration (R300), which must be in its domain (R7, U10). Reset falls between commands only and leaves
what the agents have yet to present (DESIGN CHOICE, log entry 8). -/
def fetch (s : State) : Fetched :=
  match s.resetIn with
  | [] => arbitrate s
  | .inactive :: rest => arbitrate { s with resetIn := rest }
  | .pulse (held + 1) c :: rest => .quiet { s with resetIn := .pulse held c :: rest }
  | .pulse 0 c :: rest =>
    if c.wf then .quiet ({ s with resetIn := rest }.release c) else .refused .configOutOfDomain

/-- The bytes of a table word's command, as they are presented at a port: those the decoder takes, or
all of them where it refuses. -/
def tableWordCommand (nbits w : Nat) : List Byte :=
  match decode (tableWordBytes nbits w) with
  | .ok (_, rest) => (tableWordBytes nbits w).take ((tableWordBytes nbits w).length - rest.length)
  | .error _ => tableWordBytes nbits w

/-- The port a table word's command is presented at. -/
def tableWordPort (nbits w : Nat) : Port :=
  match decodeTableWord nbits w with
  | some i => i.port
  | none => .producer

/-- The state in which the only thing to serve next is `bs`, ahead of what port `p` had: the other port
is emptied and the reset input is not asserted. -/
def State.present (s : State) (p : Port) (bs : List Byte) : State :=
  match p with
  | .producer => { s with producerIn := bs ++ s.producerIn, consumerIn := [], resetIn := [] }
  | .consumer => { s with consumerIn := bs ++ s.consumerIn, producerIn := [], resetIn := [] }

end Sys2Proof.Machine
end

