-- ==== Sys2Proof/Machine/Step.lean ====
section
/-! DEFINITION. One step of the machine: the next command of the total order executes whole
(spec/20_memory.md R63, R67). -/

namespace Sys2Proof.Machine

open Sys2Proof

/-- One step: the command fetched executes to completion; a step that finds none is quiet. -/
def step (s : State) : Host.Outcome State Fault Refusal :=
  match fetch s with
  | .command i t => exec i t
  | .quiet t => .next t
  | .refused r => .refused r

/-- The state whose next step runs the command of a table word: its bytes stand first at the command's
own port, and nothing else can be served (log entry 4). -/
def State.withFetchWord (s : State) (nbits w : Nat) : State :=
  s.present (tableWordPort nbits w) (tableWordCommand nbits w)

end Sys2Proof.Machine
end

