-- ==== Sys2Proof/Safety.lean ====
section
/-! DEFINITION. The terms claims are stated in: the invariant of every state a run reaches
(spec/10_state.md R43), the codes and keys of a report, runs over a list of commands in their total
order (spec/20_memory.md R67), and the part of the state each device owns. -/

namespace Sys2Proof.Machine

open Sys2Proof

/-! ### The invariant -/

/-- What holds in every state a run reaches. -/
structure Invariant (s : State) : Prop where
  /-- the configuration sampled is in its domain (R7) -/
  cfg_wf : s.cfg.wf = true
  /-- OBUF has P_N bytes (R34) -/
  obuf_length : s.obuf.length = s.cfg.pN
  /-- `0 <= MX <= P_W` (R43) -/
  mx_le : s.mx.toNat ≤ s.cfg.pW.toNat
  /-- `0 <= MY <= P_H` (R43) -/
  my_le : s.my.toNat ≤ s.cfg.pH.toNat
  /-- LED_LAST is the LED byte of the lock bits (R142), so its bits 7:3 are 0 (R43) -/
  led_last : s.ledLast = s.led
  /-- a modifier of a disabled category has its latch clear (R118) -/
  latch_disabled : ∀ j : Modifier, s.cfg.enabled j.feature = false → s.modlatch.get j = false
  /-- the bits set in KEYMAP are codes of one report of six slots, none of them 0x00 or 0x01 (R30, R125) -/
  keymap_of_report : ∃ slots : List Byte, slots.length ≤ 6 ∧
    ∀ c : Byte, keyIn s.keymap c = true → c ∈ slots ∧ c ≠ U_EMPTY ∧ c ≠ U_ROLLOVER
  /-- under LITERAL_AND no bit is ever set (R132) -/
  literal_keymap : s.cfg.pKbCommit = .literalAnd → s.keymap = 0
  /-- SNAP publishes the accumulator (R209), or is all zero with the accumulator as reset left it (R41) -/
  snap_current : s.snap = packSnapshot s.btn s.phase s.mx s.my ∨
    (s.snap = Snapshot.zero ∧ s.btn = 0 ∧ s.phase = 0 ∧ s.mx = screenCentre s.cfg.pW ∧
      s.my = screenCentre s.cfg.pH)

/-! ### The codes and keys of a keyboard report -/

/-- The buffer after appending codes in order (R234). -/
def obufAppendAll (buf codes : List Byte) : List Byte := codes.foldl obufAppend buf

/-- The slots the scan processes: those before the first 0x00 (R125, R128). -/
def processed (slots : List Byte) : List Byte := slots.takeWhile (fun c => c != U_EMPTY)

/-- Whether the slots make a rollover report, by the reading of the configuration (R120). -/
def isRollover (cfg : Config) (slots : List Byte) : Bool :=
  match cfg.pPhantomScope with
  | .allSlots => slots.contains U_ROLLOVER
  | .untilZero => (processed slots).contains U_ROLLOVER

/-- The modifiers that rise in a report with modifier byte `m`: bit set, category enabled, latch clear,
in the order of the pass (R115, R116). -/
def risingModifiers (m : Byte) (s : State) : List Modifier :=
  Modifier.all.filter fun j => m.getLsbD j.bit && s.cfg.enabled j.feature && !s.modlatch.get j

/-- The codes the modifier pass appends, in order (R115, R116). -/
def modifierCodes (m : Byte) (s : State) : List Byte :=
  (risingModifiers m s).map fun j => s.cfg.xcode j.key

/-- The rising edges of a report in slot order: the processed codes whose KEYMAP bit is 0, each once
under SCAN_SET and each occurrence under LITERAL_AND (R125 to R127). -/
def risingKeys (cfg : Config) (keymap : KeySet) (slots : List Byte) : List Byte :=
  let fresh := (processed slots).filter fun c => !keyIn keymap c
  match cfg.pKbCommit with
  | .scanSet => fresh.eraseDups
  | .literalAnd => fresh

/-- A report with one key `c` in slot 0, the other slots empty. -/
def oneKey (m r c : Byte) : Instr := .kbdReport [m, r, c, 0, 0, 0, 0, 0]

/-- Presenting `oneKey m r c` completes, appends the modifier codes and then exactly `codes`, sets
KB_UPDATED if anything was appended, and leaves the lock bits alone. -/
def KeyAppends (m r c : Byte) (s : State) (codes : List Byte) : Prop :=
  ∃ t, exec (oneKey m r c) s = .next t ∧
    t.obuf = obufAppendAll s.obuf (modifierCodes m s ++ codes) ∧
    t.kbUpdated = (s.kbUpdated || !(modifierCodes m s ++ codes).isEmpty) ∧
    t.numLock = s.numLock ∧ t.capsLock = s.capsLock ∧ t.scrollLock = s.scrollLock

/-! ### Runs over a list of commands -/

/-- The commands executed one after another (R67 (a)). -/
def execAll : List Instr → State → Host.Outcome State Fault Refusal
  | [], s => .next s
  | i :: is, s =>
    match exec i s with
    | .next t => execAll is t
    | .fault r => .fault r
    | .refused r => .refused r

/-! ### The codes a run appends -/

/-- The codes that routing these keys one after another appends, each by its category and the lock bits the
earlier ones left; a lock key has none (R150, R155). -/
def routedCodes (shift : Bool) : List Byte → State → List Byte
  | [], _ => []
  | c :: cs, s =>
    (if isLockKey c then [] else (keyCode s.cfg s.numLock s.capsLock shift c).toList) ++
      routedCodes shift cs (route c shift s)

/-- The codes a command appends: those of an accepted keyboard report, its rising modifiers' and then,
unless it is a rollover report, its rising keys' in slot order (R146). -/
def commandCodes (i : Instr) (s : State) : List Byte :=
  match i with
  | .kbdReport report =>
    match kbdFields report with
    | some r => modifierCodes r.mods s ++
        if isRollover s.cfg r.slots then []
        else routedCodes (shiftPressed r.mods) (risingKeys s.cfg s.keymap r.slots) s
    | none => []
  | .msReport _ => []
  | .kbdPoll => []
  | .kbdRead => []
  | .msPoll => []
  | .msRead => []

/-- The codes a run over a list of commands appends, in order. -/
def runCodes : List Instr → State → List Byte
  | [], _ => []
  | i :: is, s =>
    commandCodes i s ++
      match exec i s with
      | .next t => runCodes is t
      | .fault _ => []
      | .refused _ => []

/-- The commands of the mouse: MS_REPORT, MS_POLL, MS_READ. -/
def isMouseCommand : Instr → Bool
  | .kbdReport _ => false
  | .msReport _ => true
  | .kbdPoll => false
  | .kbdRead => false
  | .msPoll => true
  | .msRead => true

/-- `k` steps, stopping at the first refusal. -/
def stepAll : Nat → State → Host.Outcome State Fault Refusal
  | 0, s => .next s
  | k + 1, s =>
    match step s with
    | .next t => stepAll k t
    | .fault r => .fault r
    | .refused r => .refused r

/-! ### What each device owns (R25) -/

/-- The elements of the Mouse Decoder and the mouse's side of the Change Detector (S8 to S13). -/
structure MouseView where
  mx : Coord
  my : Coord
  phase : Phase
  btn : Byte
  snap : Snapshot
  copy : Snapshot
  deriving DecidableEq, Repr

/-- The elements of the Keyboard Decoder, the Output Buffer and KB_UPDATED (S0 to S7). -/
structure KeyboardView where
  keymap : KeySet
  modlatch : ModLatch
  numLock : Bool
  capsLock : Bool
  scrollLock : Bool
  ledLast : Byte
  obuf : List Byte
  kbUpdated : Bool
  deriving DecidableEq, Repr

/-- The outside world's side of the block: the bytes to be presented, the reset input, the arbitration
count, and with it the configuration, none of which a command's own effect touches. -/
structure OutsideView where
  cfg : Config
  producerIn : List Byte
  consumerIn : List Byte
  resetIn : List ResetInput
  arbCount : Nat
  deriving DecidableEq, Repr

def State.mouse (s : State) : MouseView := ⟨s.mx, s.my, s.phase, s.btn, s.snap, s.copy⟩

def State.keyboard (s : State) : KeyboardView :=
  ⟨s.keymap, s.modlatch, s.numLock, s.capsLock, s.scrollLock, s.ledLast, s.obuf, s.kbUpdated⟩

def State.outside (s : State) : OutsideView :=
  ⟨s.cfg, s.producerIn, s.consumerIn, s.resetIn, s.arbCount⟩

end Sys2Proof.Machine
end

