-- ==== Sys2Proof/Certificates/Slice0/Obligations.lean ====
section
/-! DEFINITION. The statements for the provers: what each command and the machine do, by the rules of
spec/. Completion is said as `exec i s = .next t`; the next state is named by its elements. A docstring
says which rule a statement formalises, and which of its clauses are the spec's or the model's choice. -/

open Sys2Proof Sys2Proof.Machine

/-! ### Encoding (30_encoding.md). The framing is the spec's own choice (D2), so these are derived. -/

/-- Decoding an encoded command gives it back with what follows it, for every payload the length byte
admits: no bit of a command is dropped and a malformed report is consumed whole (R86, R89). -/
def Obligations.DecodeOfEncodeGivesTheCommandBack : Prop :=
  ∀ (i : Instr) (rest : List Byte), i.wf = true → decode (encode i ++ rest) = .ok (i, rest)

/-- Whatever bytes decode to a command are that command's encoding followed by the rest (R86, R89), and
the command is well formed: no two byte strings stand for one command. -/
def Obligations.DecodedBytesAreTheEncoding : Prop :=
  ∀ (bs rest : List Byte) (i : Instr), decode bs = .ok (i, rest) → i.wf = true ∧ bs = encode i ++ rest

/-- The 250 opcodes outside the map are refused by name, and no opcode of the map is (R88, R92; D4). -/
def Obligations.DecoderRefusesExactlyTheReservedOpcodes : Prop :=
  ∀ (op : Byte) (bs : List Byte),
    decode (op :: bs) = .error (.reservedOpcode op) ↔ op ∉ [0x01, 0x02, 0x10, 0x11, 0x20, 0x21]

/-- Words written out from the spec's opcode map and examples decode to their commands (R88, R94). -/
def Obligations.WordsOfTheOpcodeMapDecode : Prop :=
  decode [0x01, 0x08, 0x02, 0x00, 0x04, 0x00, 0x00, 0x00, 0x00, 0x00] =
      .ok (.kbdReport [0x02, 0, 0x04, 0, 0, 0, 0, 0], []) ∧
    decode [0x02, 0x03, 0x01, 0x0A, 0x05] = .ok (.msReport [0x01, 0x0A, 0x05], []) ∧
    decode [0x10] = .ok (.kbdPoll, []) ∧ decode [0x11] = .ok (.kbdRead, []) ∧
    decode [0x20] = .ok (.msPoll, []) ∧ decode [0x21] = .ok (.msRead, [])

/-! ### The step (20_memory.md, 60_exceptions.md, 70_reset_and_hazards.md) -/

/-- A STEP RUNS THE DECODED COMMAND: while reset is not asserted, if the one port with something to
serve holds a command of its own, the step is that command's execution with exactly its bytes taken from
the port (R63, R67, R89). -/
def Obligations.StepRunsThePendingCommand : Prop :=
  ∀ (s : State) (p : Port) (i : Instr) (rest : List Byte),
    decode (s.portIn p) = .ok (i, rest) → i.port = p → portReady (s.portIn (otherPort p)) = false →
      (s.resetIn = [] → step s = exec i (s.setPortIn p rest)) ∧
      (∀ r, s.resetIn = .inactive :: r → step s = exec i ({ s with resetIn := r }.setPortIn p rest))

/-- Between two ports that both hold a command of their own, the step runs the one of the port the free
arbiter names, and counts the decision, whether or not the reset input has an entry for the step (R67 (e),
R287; the form of the free values is the model's, log entry 2). It holds for every arbiter. -/
def Obligations.StepServesThePortTheArbiterNames : Prop :=
  ∀ (s : State) (i j : Instr) (restP restC : List Byte),
    decode s.producerIn = .ok (i, restP) → i.port = .producer →
      decode s.consumerIn = .ok (j, restC) → j.port = .consumer →
      (s.resetIn = [] →
        (arbiter s.arbCount = .producer →
          step s = exec i { s with producerIn := restP, arbCount := s.arbCount + 1 }) ∧
        (arbiter s.arbCount = .consumer →
          step s = exec j { s with consumerIn := restC, arbCount := s.arbCount + 1 })) ∧
      (∀ r, s.resetIn = .inactive :: r →
        (arbiter s.arbCount = .producer →
          step s = exec i { s with resetIn := r, producerIn := restP, arbCount := s.arbCount + 1 }) ∧
        (arbiter s.arbCount = .consumer →
          step s = exec j { s with resetIn := r, consumerIn := restC, arbCount := s.arbCount + 1 }))

/-- A reserved opcode and a command at the wrong port are refused by name, whatever their payload, where
their port is served: the other port has nothing to serve, or the arbiter names this one (R91, R92, R272,
R274; D4). -/
def Obligations.StepRefusesReservedOpcodeAndWrongPort : Prop :=
  ∀ (s : State) (p : Port), (s.resetIn = [] ∨ ∃ r, s.resetIn = .inactive :: r) →
    (portReady (s.portIn (otherPort p)) = false ∨ arbiter s.arbCount = p) →
    (∀ op, decode (s.portIn p) = .error (.reservedOpcode op) → step s = .refused (.reservedOpcode op)) ∧
    (∀ i rest, decode (s.portIn p) = .ok (i, rest) → i.port ≠ p → step s = .refused (.wrongPort i))

/-- A step with no command to execute is quiet: while reset is asserted no command executes, whatever the
ports hold (R300; that the ports keep what they hold is the model's choice, log entry 8), and where neither
port holds a whole command nothing changes (the model's choice, log entry 3: the block executes a command
when it is presented, R278). Only the reset input is read. -/
def Obligations.StepWithNoCommandToExecuteIsQuiet : Prop :=
  ∀ s : State,
    (∀ n c r, s.resetIn = .pulse (n + 1) c :: r → step s = .next { s with resetIn := .pulse n c :: r }) ∧
    (portReady s.producerIn = false → portReady s.consumerIn = false →
      (s.resetIn = [] → step s = .next s) ∧
      (∀ r, s.resetIn = .inactive :: r → step s = .next { s with resetIn := r }))

/-- When reset is released, as it is at the end of every pulse, the configuration is sampled and every
element S0 to S13 takes the reset value of R25 (R300; all values but those of KEYMAP, MX and MY are the
spec's decisions D24, D27 to D29, and so is the rounding of MX and MY), no LED byte is presented and
nothing is returned. That the ports, the reset input, the arbitration count and the trace stay is the
model's choice (log entry 8). A configuration out of its domain is refused (U10,
93_implementation_defined.md section 2; log entry 6). -/
def Obligations.ResetReleaseGivesTheResetValues : Prop :=
  ∀ (s : State) (c : Config) (r : List ResetInput), s.resetIn = .pulse 0 c :: r →
    (c.wf = false → step s = .refused .configOutOfDomain) ∧
    (c.wf = true → ∃ t, step s = .next t ∧ t.cfg = c ∧ (∀ k, keyIn t.keymap k = false) ∧
      (∀ j, t.modlatch.get j = false) ∧ t.numLock = false ∧ t.capsLock = false ∧ t.scrollLock = false ∧
      t.ledLast = 0 ∧ t.obuf = List.replicate c.pN 0 ∧ t.kbUpdated = false ∧
      t.mx.toNat = c.pW.toNat / 2 ∧ t.my.toNat = c.pH.toNat / 2 ∧ t.phase = 0 ∧ t.btn = 0 ∧
      t.snap.bytes = [0, 0, 0, 0, 0] ∧ t.copy.bytes = [0, 0, 0, 0, 0] ∧
      t.producerIn = s.producerIn ∧ t.consumerIn = s.consumerIn ∧ t.resetIn = r ∧
      t.arbCount = s.arbCount ∧ t.out = s.out)

/-- No step changes the configuration but a release of reset, which samples the one presented with it
(R21). -/
def Obligations.OnlyReleaseOfResetChangesTheConfiguration : Prop :=
  ∀ s t : State, step s = .next t →
    t.cfg = s.cfg ∨ ∃ c r, s.resetIn = .pulse 0 c :: r ∧ c.wf = true ∧ t.cfg = c

/-- The total order keeps each port's own order: a step takes nothing from the ports, or takes the whole
bytes of one command from the front of that command's port and nothing from the other (R63, R89). -/
def Obligations.StepTakesOneWholeCommandFromItsPort : Prop :=
  ∀ s t : State, step s = .next t →
    (t.producerIn = s.producerIn ∧ t.consumerIn = s.consumerIn) ∨
    ∃ i : Instr, s.portIn i.port = encode i ++ t.portIn i.port ∧
      t.portIn (otherPort i.port) = s.portIn (otherPort i.port)

/-- A step adds at most one event to the output trace and removes none (R289, R290). -/
def Obligations.StepOutputsAtMostOneEvent : Prop :=
  ∀ s t : State, step s = .next t → t.out = s.out ∨ ∃ e, t.out = s.out ++ [e]

/-! ### The invariant (10_state.md R43) -/

/-- The reset state meets the invariant, for every configuration in its domain. -/
def Obligations.ResetStateMeetsTheInvariant : Prop :=
  (∀ c : Config, c.wf = true → Invariant (State.resetWith c)) ∧ Invariant State.reset

/-- AN INVARIANT THAT EVERY STEP KEEPS: OBUF has P_N bytes, MX and MY stay on the screen, LED_LAST is the
LED byte, disabled modifiers have clear latches, KEYMAP is of one report, SNAP publishes the accumulator
(R43 and the consequences R118, R132, R142, R210 the spec draws). -/
def Obligations.EveryStepKeepsTheInvariant : Prop :=
  ∀ s t : State, Invariant s → step s = .next t → Invariant t

/-! ### KBD_REPORT: lengths, frame, modifier pass (40_keyboard.md) -/

/-- A keyboard report whose length is not 8, and a mouse report whose length is neither 3 nor 6, completes
with no effect at all: no state change, no LED byte, no response, whatever it holds (R111, R201, R271,
R274; D36). -/
def Obligations.ReportOfWrongLengthIsRejected : Prop :=
  ∀ (report : List Byte) (s : State),
    (report.length ≠ 8 → exec (.kbdReport report) s = .next s) ∧
    (report.length ≠ 3 → report.length ≠ 6 → exec (.msReport report) s = .next s)

/-- Every keyboard report of 8 bytes completes. It leaves the mouse, COPY, the ports and the configuration
unchanged; it appends at most 12 codes and sets KB_UPDATED exactly if it appends one; it presents at most
one LED byte and returns nothing (R110, R145, R141). -/
def Obligations.KeyboardReportCompletesAndItsFrame : Prop :=
  ∀ (report : List Byte) (s : State), report.length = 8 →
    ∃ t codes, exec (.kbdReport report) s = .next t ∧
      t.mouse = s.mouse ∧ t.outside = s.outside ∧
      codes.length ≤ 12 ∧ t.obuf = obufAppendAll s.obuf codes ∧
      t.kbUpdated = (s.kbUpdated || !codes.isEmpty) ∧
      (t.out = s.out ∨ ∃ v, t.out = s.out ++ [.led v])

/-- Two keyboard reports that differ only in byte 1 have the same effect (R112). -/
def Obligations.KeyboardReportByteOneIsIgnored : Prop :=
  ∀ (m r r' : Byte) (slots : List Byte) (s : State),
    exec (.kbdReport (m :: r :: slots)) s = exec (.kbdReport (m :: r' :: slots)) s

/-- The latches after any accepted report, a rollover report or not: a clear bit clears the latch, a set
bit of an enabled category leaves it set, a set bit of a disabled category leaves it as it was (R115,
R117). -/
def Obligations.ModifierLatchesFollowTheModifierByte : Prop :=
  ∀ (m r : Byte) (slots : List Byte) (s : State), slots.length = 6 →
    ∃ t, exec (.kbdReport (m :: r :: slots)) s = .next t ∧
      ∀ j : Modifier, t.modlatch.get j =
        (m.getLsbD j.bit && (s.cfg.enabled j.feature || s.modlatch.get j))

/-- A rollover report appends exactly the codes of the modifiers that rise in it, left to right in
ascending bit order, and has no other key effect: KEYMAP and the lock bits keep their values, whatever
codes its slots hold (R115 to R117, R120, R122; the order is D10, the scope of the check D11 and D12). -/
def Obligations.RolloverReportEmitsOnlyModifierCodes : Prop :=
  ∀ (m r : Byte) (slots : List Byte) (s : State), slots.length = 6 → isRollover s.cfg slots = true →
    ∃ t, exec (.kbdReport (m :: r :: slots)) s = .next t ∧
      t.obuf = obufAppendAll s.obuf (modifierCodes m s) ∧
      t.kbUpdated = (s.kbUpdated || !(modifierCodes m s).isEmpty) ∧
      t.keymap = s.keymap ∧ t.numLock = s.numLock ∧ t.capsLock = s.capsLock ∧
      t.scrollLock = s.scrollLock

/-! ### KBD_REPORT: key scan, commit, LED update -/

/-- The commit of a report that is no rollover report: the bit of code c is 1 exactly if c was processed
and, under LITERAL_AND, its bit was 1 before (R130 to R132; the two readings are D13). -/
def Obligations.CommittedKeymapIsTheObservedSet : Prop :=
  ∀ (m r : Byte) (slots : List Byte) (s : State), slots.length = 6 → isRollover s.cfg slots = false →
    ∃ t, exec (.kbdReport (m :: r :: slots)) s = .next t ∧
      ∀ c : Byte, keyIn t.keymap c =
        (decide (c ∈ processed slots) && (s.cfg.pKbCommit == .scanSet || keyIn s.keymap c))

/-- What a report that is no rollover report and holds no lock key appends: the modifier codes, then for
each rising edge in slot order the code its category gives it, and nothing for a held key (R125 to R128,
R146, R150). -/
def Obligations.ReportEmitsModifierCodesThenRisingKeysInSlotOrder : Prop :=
  ∀ (m r : Byte) (slots : List Byte) (s : State), slots.length = 6 → isRollover s.cfg slots = false →
    (∀ c ∈ processed slots, isLockKey c = false) →
    ∃ t, exec (.kbdReport (m :: r :: slots)) s = .next t ∧
      t.obuf = obufAppendAll s.obuf (modifierCodes m s ++
        (risingKeys s.cfg s.keymap slots).filterMap
          (keyCode s.cfg s.numLock s.capsLock (shiftPressed m))) ∧
      t.numLock = s.numLock ∧ t.capsLock = s.capsLock ∧ t.scrollLock = s.scrollLock

/-- The rising edges are routed in slot order, each seeing the lock bits the earlier ones left: the
buffer, the flag and the lock bits of any report that is no rollover report are those of routing its
rising keys one after another, after the modifier codes (R125, R172; D15). -/
def Obligations.RisingKeysAreRoutedOneAfterAnother : Prop :=
  ∀ (m r : Byte) (slots : List Byte) (s : State), slots.length = 6 → isRollover s.cfg slots = false →
    ∃ t, exec (.kbdReport (m :: r :: slots)) s = .next t ∧
      let u := (risingKeys s.cfg s.keymap slots).foldl (fun v c => route c (shiftPressed m) v)
        ((modifierCodes m s).foldl State.append s)
      t.obuf = u.obuf ∧ t.kbUpdated = u.kbUpdated ∧ t.numLock = u.numLock ∧
        t.capsLock = u.capsLock ∧ t.scrollLock = u.scrollLock

/-- Slots after the first 0x00 are not processed, whatever they hold: two reports with the same modifier
byte, the same slots before the first 0x00 and the same answer of the rollover check have the same effect
(R128). With 0x00 in slot 0 no slot is processed, so KEYMAP ends empty and no key code is appended. Under
ALL_SLOTS a 0x01 in any slot, one after the first 0x00 too, still makes a rollover report, which leaves
KEYMAP and every key's code out (R120, R122; the spec's decisions D11 and D12 and its inference). -/
def Obligations.SlotsAfterTheFirstZeroAreNotProcessed : Prop :=
  (∀ (m r r' : Byte) (slots slots' : List Byte) (s : State), slots.length = 6 → slots'.length = 6 →
    processed slots = processed slots' → isRollover s.cfg slots = isRollover s.cfg slots' →
    exec (.kbdReport (m :: r :: slots)) s = exec (.kbdReport (m :: r' :: slots')) s) ∧
  (∀ (m r : Byte) (slots : List Byte) (s : State), slots.length = 5 →
    isRollover s.cfg (0 :: slots) = false →
    ∃ t, exec (.kbdReport (m :: r :: 0 :: slots)) s = .next t ∧ t.keymap = 0 ∧
      t.obuf = obufAppendAll s.obuf (modifierCodes m s)) ∧
  (∀ (m r : Byte) (slots : List Byte) (s : State), slots.length = 6 →
    s.cfg.pPhantomScope = .allSlots → 0x01 ∈ slots →
    ∃ t, exec (.kbdReport (m :: r :: slots)) s = .next t ∧ t.keymap = s.keymap ∧
      t.obuf = obufAppendAll s.obuf (modifierCodes m s))

/-- A held key and a release are silent: a report that is no rollover report, whose processed codes are
all down already and in which no modifier rises, appends nothing, toggles no lock and leaves KB_UPDATED;
in a state that meets the invariant it presents no LED byte (R126, R133). -/
def Obligations.HeldKeysAndReleasesAreSilent : Prop :=
  ∀ (m r : Byte) (slots : List Byte) (s : State), slots.length = 6 → isRollover s.cfg slots = false →
    (∀ c ∈ processed slots, keyIn s.keymap c = true) → risingModifiers m s = [] →
    ∃ t, exec (.kbdReport (m :: r :: slots)) s = .next t ∧ t.obuf = s.obuf ∧
      t.kbUpdated = s.kbUpdated ∧ t.numLock = s.numLock ∧ t.capsLock = s.capsLock ∧
      t.scrollLock = s.scrollLock ∧ (Invariant s → t.out = s.out)

/-- EDGE TRIGGERING: under SCAN_SET a keyboard report presented again at once changes nothing: no code is
appended, no lock toggles, no LED byte is presented ("Holding a mapped key across consecutive identical
reports emits its output code exactly once", R126, R118, R142). -/
def Obligations.SameReportPresentedAgainChangesNothing : Prop :=
  ∀ (report : List Byte) (s t : State), s.cfg.pKbCommit = .scanSet →
    exec (.kbdReport report) s = .next t → exec (.kbdReport report) t = .next t

/-- After every accepted report LED_LAST is the LED byte of the lock bits, and that byte was presented
exactly if it differs from the LED_LAST before (R140, R141; that this runs after a rollover report too
is D24). -/
def Obligations.LedByteIsPresentedExactlyOnChange : Prop :=
  ∀ (report : List Byte) (s : State), report.length = 8 →
    ∃ t, exec (.kbdReport report) s = .next t ∧
      t.ledLast = t.led ∧
      t.out = s.out ++ (if t.ledLast = s.ledLast then [] else [.led t.ledLast])

/-- In every state the LED byte's bits are: 0 num-lock, 1 caps-lock, 2 scroll-lock, the others 0 (R140,
R87). -/
def Obligations.LedByteHoldsTheLockBits : Prop :=
  ∀ s : State, s.led.getLsbD 0 = s.numLock ∧ s.led.getLsbD 1 = s.capsLock ∧
    s.led.getLsbD 2 = s.scrollLock ∧ ∀ k, 3 ≤ k → s.led.getLsbD k = false

/-- In a state that meets the invariant, a command presents an LED byte only if it changes a lock bit
(R142). -/
def Obligations.LedByteOnlyWhenALockBitChanges : Prop :=
  ∀ (i : Instr) (s t : State) (v : Byte), Invariant s → exec i s = .next t → t.out = s.out ++ [.led v] →
    t.numLock ≠ s.numLock ∨ t.capsLock ≠ s.capsLock ∨ t.scrollLock ≠ s.scrollLock

/-- A lock bit changes only by a keyboard report that is no rollover report and holds its key as a rising
edge, with its feature flag enabled (R32, R155). -/
def Obligations.LockBitsChangeOnlyByTheirEnabledKey : Prop :=
  ∀ (m r : Byte) (slots : List Byte) (s t : State),
    exec (.kbdReport (m :: r :: slots)) s = .next t →
    (t.numLock ≠ s.numLock → U_NUMLOCK ∈ risingKeys s.cfg s.keymap slots ∧
      isRollover s.cfg slots = false ∧ s.cfg.enabled .numLock = true) ∧
    (t.capsLock ≠ s.capsLock → U_CAPSLOCK ∈ risingKeys s.cfg s.keymap slots ∧
      isRollover s.cfg slots = false ∧ s.cfg.enabled .capsLock = true) ∧
    (t.scrollLock ≠ s.scrollLock → U_SCROLLLOCK ∈ risingKeys s.cfg s.keymap slots ∧
      isRollover s.cfg slots = false ∧ s.cfg.enabled .scrollLock = true)

/-! ### Routing of one newly pressed key (41_keyboard_lut.md) -/

/-- Letters: row k of P_LETTER, column (shift pressed) XOR (caps-lock on), no flag (R165). -/
def Obligations.LetterKeyEmitsTheShiftXorCapsColumn : Prop :=
  ∀ (m r : Byte) (k : Fin 26) (s : State), keyIn s.keymap (BitVec.ofNat 8 (0x04 + k.val)) = false →
    KeyAppends m r (BitVec.ofNat 8 (0x04 + k.val)) s
      [if (m.getLsbD 1 || m.getLsbD 5) ^^ s.capsLock then s.cfg.pLetter[k].2 else s.cfg.pLetter[k].1]

/-- Digits and punctuation: row k of P_DIGPUNCT, column shift pressed, whatever the lock bits; NONE appends
nothing; escape only if its flag is enabled (R159, R160; the escape flag is D18). Shifted Tab is not of
this path (R152). -/
def Obligations.DigitOrPunctuationKeyEmitsTheShiftColumn : Prop :=
  ∀ (m r : Byte) (k : Fin 27) (s : State), keyIn s.keymap (BitVec.ofNat 8 (0x1E + k.val)) = false →
    (k.val = 0x0D → (m.getLsbD 1 || m.getLsbD 5) = false) →
    KeyAppends m r (BitVec.ofNat 8 (0x1E + k.val)) s
      (if k.val = 0x0B ∧ s.cfg.enabled .esc = false then []
       else (if m.getLsbD 1 || m.getLsbD 5 then s.cfg.pDigPunct[k].2 else s.cfg.pDigPunct[k].1).toList)

/-- Tab with either shift bit set appends the shift-tab code; no flag gates it (R158; D23). -/
def Obligations.ShiftedTabEmitsTheShiftTabCode : Prop :=
  ∀ (m r : Byte) (s : State), keyIn s.keymap 0x2B = false → (m.getLsbD 1 || m.getLsbD 5) = true →
    KeyAppends m r 0x2B s [s.cfg.xcode .shiftTab]

/-- Each navigation key appends its own extended code if its flag is enabled, and nothing otherwise (R156;
the flags' granularity is D7). -/
def Obligations.NavigationKeyEmitsItsCodeIfEnabled : Prop :=
  ∀ (m r c : Byte) (key : XKey) (flag : Feature) (s : State),
    (c, key, flag) ∈ ([(0x4F, .right, .arrows), (0x50, .left, .arrows), (0x51, .down, .arrows),
      (0x52, .up, .arrows), (0x49, .insert, .insert), (0x4A, .home, .home), (0x4D, .endKey, .endKey),
      (0x4B, .pageUp, .pageUp), (0x4E, .pageDown, .pageDown),
      (0x46, .printScreen, .printScreen)] : List (Byte × XKey × Feature)) →
    keyIn s.keymap c = false →
    KeyAppends m r c s (if s.cfg.enabled flag then [s.cfg.xcode key] else [])

/-- The delete key appends P_DEL regardless of flags (R157; the value of P_DEL is D20). -/
def Obligations.DeleteKeyEmitsRegardlessOfFlags : Prop :=
  ∀ (m r : Byte) (s : State), keyIn s.keymap 0x4C = false → KeyAppends m r 0x4C s [s.cfg.pDel]

/-- Keypad with FF_KEYPAD enabled: enter, equal and 5 append their code whatever num-lock is, and with
num-lock on every keypad key appends its code of P_KEYPAD; with FF_KEYPAD disabled nothing is appended.
Shift is not read (R161; D21, D22). -/
def Obligations.KeypadKeyEmitsItsCodeWithNumLockOn : Prop :=
  ∀ (m r : Byte) (k : Fin 17) (s : State),
    let c : Byte := if k.val = 16 then 0x67 else BitVec.ofNat 8 (0x54 + k.val)
    keyIn s.keymap c = false →
    (s.cfg.enabled .keypad = false → KeyAppends m r c s []) ∧
    (s.cfg.enabled .keypad = true → s.numLock = true ∨ c = 0x58 ∨ c = 0x67 ∨ c = 0x5D →
      KeyAppends m r c s [s.cfg.pKeypad[k]])

/-- Keypad with FF_KEYPAD enabled and num-lock off: each digit but 5 appends the code of its navigation
key if that key's flag is enabled, the decimal point appends P_DEL with no flag of its own, and the four
operators append their code only under the ASCII reading (R161, R162; D21). -/
def Obligations.KeypadKeyEmitsItsNavigationCodeWithNumLockOff : Prop :=
  ∀ (m r c : Byte) (s : State), s.numLock = false → s.cfg.enabled .keypad = true →
    keyIn s.keymap c = false →
    (∀ (key : XKey) (flag : Feature),
      (c, key, flag) ∈ ([(0x62, .insert, .insert), (0x59, .endKey, .endKey), (0x5A, .down, .arrows),
        (0x5B, .pageDown, .pageDown), (0x5C, .left, .arrows), (0x5E, .right, .arrows),
        (0x5F, .home, .home), (0x60, .up, .arrows),
        (0x61, .pageUp, .pageUp)] : List (Byte × XKey × Feature)) →
      KeyAppends m r c s (if s.cfg.enabled flag then [s.cfg.xcode key] else [])) ∧
    (c = 0x63 → KeyAppends m r c s [s.cfg.pDel]) ∧
    (∀ k : Fin 4, c = BitVec.ofNat 8 (0x54 + k.val) →
      KeyAppends m r c s
        (match s.cfg.pKpOpsNlOff with
         | .ascii => [s.cfg.pKeypad[k.val]]
         | .silent => []))

/-- Function keys: F1 + n appends entry F1 + n of P_XCODE if FF_FKEYS is enabled (R163). The usage numbers
0x3A to 0x45 are R151's, from general knowledge (D16; log entry 10). -/
def Obligations.FunctionKeyEmitsItsTableCodeIfEnabled : Prop :=
  ∀ (m r : Byte) (n : Fin 12) (s : State), keyIn s.keymap (BitVec.ofNat 8 (0x3A + n.val)) = false →
    KeyAppends m r (BitVec.ofNat 8 (0x3A + n.val)) s
      (if s.cfg.enabled .fKeys then [s.cfg.xcode (.fkey n)] else [])

/-- Unmapped codes append nothing, and enter KEYMAP like any processed code under SCAN_SET (R164; D44). -/
def Obligations.UnmappedKeyEmitsNothing : Prop :=
  ∀ (m r c : Byte) (s : State),
    c = 0x02 ∨ c = 0x03 ∨ c = 0x48 ∨ c = 0x64 ∨ c = 0x65 ∨ c = 0x66 ∨ 0x68 ≤ c.toNat →
    keyIn s.keymap c = false →
    KeyAppends m r c s [] ∧
      (s.cfg.pKbCommit = .scanSet →
        ∀ t, exec (oneKey m r c) s = .next t → keyIn t.keymap c = true)

/-- Lock keys: a newly pressed lock key flips its own bit if its flag is enabled and otherwise changes no
lock bit; it appends nothing of its own (R155). -/
def Obligations.LockKeyTogglesItsBitIfEnabled : Prop :=
  ∀ (m r c : Byte) (s : State), c = 0x53 ∨ c = 0x39 ∨ c = 0x47 → keyIn s.keymap c = false →
    ∃ t, exec (oneKey m r c) s = .next t ∧
      t.numLock = (s.numLock ^^ (c == 0x53 && s.cfg.enabled .numLock)) ∧
      t.capsLock = (s.capsLock ^^ (c == 0x39 && s.cfg.enabled .capsLock)) ∧
      t.scrollLock = (s.scrollLock ^^ (c == 0x47 && s.cfg.enabled .scrollLock)) ∧
      t.obuf = obufAppendAll s.obuf (modifierCodes m s)

/-- A lock toggled by an earlier slot is seen by a later one: caps-lock then a letter, both newly pressed,
appends the letter of the toggled column (R172; D15). -/
def Obligations.LaterSlotSeesTheLockAnEarlierOneToggled : Prop :=
  ∀ (m r : Byte) (k : Fin 26) (s : State), keyIn s.keymap 0x39 = false →
    keyIn s.keymap (BitVec.ofNat 8 (0x04 + k.val)) = false → s.cfg.enabled .capsLock = true →
    ∃ t, exec (.kbdReport [m, r, 0x39, BitVec.ofNat 8 (0x04 + k.val), 0, 0, 0, 0]) s = .next t ∧
      t.capsLock = !s.capsLock ∧
      t.obuf = obufAppendAll s.obuf (modifierCodes m s ++
        [if (m.getLsbD 1 || m.getLsbD 5) ^^ !s.capsLock then s.cfg.pLetter[k].2
         else s.cfg.pLetter[k].1])

/-! ### MS_REPORT and MS_READ (42_mouse.md) -/

/-- The 3-byte form `[buttons, dx, dy]`: x moves by dx and y by minus dy, each clamped at the bound of the
direction it moves in, the buttons are stored, the phase stays, and nothing else of the state changes but
SNAP, which publishes them (R202, R204 to R207, R209, R211; the integer negation is D32). -/
def Obligations.ThreeByteMouseReportMovesAndPublishes : Prop :=
  ∀ (b dx dy : Byte) (s : State),
    ∃ t, exec (.msReport [b, dx, dy]) s = .next t ∧
      (t.mx.toNat : Int) = (if 0 < dx.toInt then min (s.mx.toNat + dx.toInt) s.cfg.pW.toNat
        else max (s.mx.toNat + dx.toInt) 0) ∧
      (t.my.toNat : Int) = (if dy.toInt < 0 then min (s.my.toNat - dy.toInt) s.cfg.pH.toNat
        else max (s.my.toNat - dy.toInt) 0) ∧
      t.phase = s.phase ∧ t.btn = b ∧ t.snap = packSnapshot b s.phase t.mx t.my ∧
      t.copy = s.copy ∧ t.keyboard = s.keyboard ∧ t.outside = s.outside ∧ t.out = s.out

/-- The 6-byte form `[buttons, dx, reserved, dy, reserved, scroll]`: as the 3-byte form, and the phase
moves by the signed scroll delta modulo 16; the two reserved bytes have no effect (R203 to R209, R211; the
8-bit reading of dx and dy is D31). -/
def Obligations.SixByteMouseReportMovesScrollsAndPublishes : Prop :=
  ∀ (b dx r1 dy r2 sc : Byte) (s : State),
    ∃ t, exec (.msReport [b, dx, r1, dy, r2, sc]) s = .next t ∧
      (t.mx.toNat : Int) = (if 0 < dx.toInt then min (s.mx.toNat + dx.toInt) s.cfg.pW.toNat
        else max (s.mx.toNat + dx.toInt) 0) ∧
      (t.my.toNat : Int) = (if dy.toInt < 0 then min (s.my.toNat - dy.toInt) s.cfg.pH.toNat
        else max (s.my.toNat - dy.toInt) 0) ∧
      (t.phase.toNat : Int) = (s.phase.toNat + sc.toInt) % 16 ∧
      t.btn = b ∧ t.snap = packSnapshot b t.phase t.mx t.my ∧
      t.copy = s.copy ∧ t.keyboard = s.keyboard ∧ t.outside = s.outside ∧ t.out = s.out

/-- Horizontal motion, either form: MX is clamped at P_W when dx is positive and at 0 otherwise (R205; the
signed 8-bit reading of the 6-byte form's dx is D31). -/
def Obligations.HorizontalMotionIsClampedInItsDirection : Prop :=
  ∀ (report : List Byte) (f : MsFields) (s : State), msFields report = some f →
    ∃ t, exec (.msReport report) s = .next t ∧
      (0 < f.dx.toInt → (t.mx.toNat : Int) = min (s.mx.toNat + f.dx.toInt) s.cfg.pW.toNat) ∧
      (f.dx.toInt ≤ 0 → (t.mx.toNat : Int) = max (s.mx.toNat + f.dx.toInt) 0)

/-- The scroll phase: the 6-byte form adds the signed delta modulo 16, which is the raw byte added modulo
16, and sixteen equal deltas return the phase (R208). -/
def Obligations.ScrollPhaseWrapsModuloSixteen : Prop :=
  ∀ (b dx r1 dy r2 sc : Byte) (s : State),
    ∃ t, exec (.msReport [b, dx, r1, dy, r2, sc]) s = .next t ∧
      (t.phase.toNat : Int) = (s.phase.toNat + sc.toInt) % 16 ∧
      t.phase.toNat = (s.phase.toNat + sc.toNat) % 16 ∧
      ∃ u, execAll (List.replicate 16 (.msReport [b, dx, r1, dy, r2, sc])) s = .next u ∧
        u.phase = s.phase

/-- In every state that meets the invariant the one-sided clamp is the two-sided one, for either form
(R210). -/
def Obligations.OneSidedClampIsTheTwoSidedClamp : Prop :=
  ∀ (report : List Byte) (f : MsFields) (s t : State), Invariant s → msFields report = some f →
    exec (.msReport report) s = .next t →
      (t.mx.toNat : Int) = min (max (s.mx.toNat + f.dx.toInt) 0) s.cfg.pW.toNat ∧
      (t.my.toNat : Int) = min (max (s.my.toNat - f.dy.toInt) 0) s.cfg.pH.toNat

/-- Every accepted mouse report publishes the accumulator in the snapshot's layout: byte 0 the button
nibble and the phase, bytes 1 and 2 x and bytes 3 and 4 y, each low byte first (R84, R209). -/
def Obligations.PublishedSnapshotFollowsTheLayout : Prop :=
  ∀ (report : List Byte) (s : State), report.length = 3 ∨ report.length = 6 →
    ∃ t, exec (.msReport report) s = .next t ∧
      t.snap.b0.toNat = t.btn.toNat % 16 + 16 * t.phase.toNat ∧
      t.snap.b1.toNat = t.mx.toNat % 256 ∧ t.snap.b2.toNat = t.mx.toNat / 256 ∧
      t.snap.b3.toNat = t.my.toNat % 256 ∧ t.snap.b4.toNat = t.my.toNat / 256

/-- Bits 7:4 of the button byte are never observable: two mouse reports that differ only there leave two
states that differ at most in BTN, and so do any commands after them, one or many, reports, polls and
reads: what they output is the same (R207; D33). The next accepted mouse report leaves no difference. -/
def Obligations.HighButtonBitsAreNotObservable : Prop :=
  ∀ (b b' : Byte) (tail : List Byte) (s t t' : State), b &&& 0x0F = b' &&& 0x0F →
    exec (.msReport (b :: tail)) s = .next t → exec (.msReport (b' :: tail)) s = .next t' →
      t' = { t with btn := t'.btn } ∧
      (∀ cs u, execAll cs t = .next u →
        ∃ u', execAll cs t' = .next u' ∧ u' = { u with btn := u'.btn } ∧ u'.out = u.out) ∧
      ∀ f rest u, exec (.msReport (f :: rest)) t = .next u → rest.length = 2 ∨ rest.length = 5 →
        exec (.msReport (f :: rest)) t' = .next u

/-- MS_READ returns the five SNAP bytes, lowest index first, and changes no element of the state (R220,
R65; D35). -/
def Obligations.MouseReadReturnsTheSnapshot : Prop :=
  ∀ s : State, exec .msRead s = .next { s with
    out := s.out ++ [.response [s.snap.b0, s.snap.b1, s.snap.b2, s.snap.b3, s.snap.b4]] }

/-! ### The Output Encoding Buffer (43_output_buffer.md) -/

/-- KBD_READ returns OBUF, index 0 first, and changes no element of the state; where the invariant holds
that is P_N bytes (R240, R65, R86; D35). -/
def Obligations.KeyboardReadReturnsTheBuffer : Prop :=
  ∀ s : State, exec .kbdRead s = .next { s with out := s.out ++ [.response s.obuf] } ∧
    (Invariant s → s.obuf.length = s.cfg.pN)

/-- Append: element 0 counts modulo 256, element 1 is the code, elements 2..N-1 are the elements 1..N-2
before, KB_UPDATED is set, and nothing else changes (R231). -/
def Obligations.AppendCountsShiftsAndSetsUpdated : Prop :=
  ∀ (s : State) (code : Byte), 2 ≤ s.obuf.length →
    (s.append code).obuf.length = s.obuf.length ∧
    ((s.append code).obuf.getD 0 0).toNat = ((s.obuf.getD 0 0).toNat + 1) % 256 ∧
    (s.append code).obuf.getD 1 0 = code ∧
    (∀ k, 2 ≤ k → k < s.obuf.length → (s.append code).obuf.getD k 0 = s.obuf.getD (k - 1) 0) ∧
    (s.append code).kbUpdated = true ∧
    { s.append code with obuf := s.obuf, kbUpdated := s.kbUpdated } = s

/-- The buffer after any list of appends: the count of appends modulo 256, then the codes most recent
first followed by the older history, cut at the buffer's length (R232, R233). -/
def Obligations.HistoryHoldsTheLastCodesMostRecentFirst : Prop :=
  ∀ (n : Byte) (hist codes : List Byte),
    obufAppendAll (n :: hist) codes =
      (n + BitVec.ofNat 8 codes.length) :: (codes.reverse ++ hist).take hist.length

/-! ### The Change Detector (44_change_detector.md) -/

/-- KBD_POLL returns one byte, 0x01 if KB_UPDATED was set and 0x00 if not, clears it, and changes nothing
else (R250). -/
def Obligations.KeyboardPollReadsAndClearsUpdated : Prop :=
  ∀ s : State, exec .kbdPoll s = .next { s with
    kbUpdated := false, out := s.out ++ [.response [if s.kbUpdated then 0x01 else 0x00]] }

/-- MS_POLL returns one byte, 0x01 if a SNAP byte differs from COPY and 0x00 if none does, copies SNAP into
COPY, and changes nothing else (R254). -/
def Obligations.MousePollComparesAndCopies : Prop :=
  ∀ s : State, exec .msPoll s = .next { s with
    copy := s.snap, out := s.out ++ [.response [if s.snap = s.copy then 0x00 else 0x01]] }

/-- KBD_POLL answers 0x01 exactly if some code was appended since the previous KBD_POLL: for every list of
commands without a KBD_POLL run after one (R252, R69). The codes appended are those of `runCodes`, computed
from the reports of the run, and they are what OBUF took. -/
def Obligations.KeyboardPollTellsWhetherAnythingWasAppended : Prop :=
  ∀ (cs : List Instr) (s s1 t : State), .kbdPoll ∉ cs → exec .kbdPoll s = .next s1 →
    execAll cs s1 = .next t →
    t.obuf = obufAppendAll s.obuf (runCodes cs s1) ∧
      ∃ u, exec .kbdPoll t = .next u ∧
        u.out = t.out ++ [.response [if runCodes cs s1 = [] then 0x00 else 0x01]]

/-- MS_POLL answers 0x01 exactly if SNAP differs from what it was at the previous MS_POLL, however many
reports and reads came between (R256, R69). -/
def Obligations.MousePollTellsWhetherTheSnapshotChanged : Prop :=
  ∀ (cs : List Instr) (s s1 t : State), .msPoll ∉ cs → exec .msPoll s = .next s1 →
    execAll cs s1 = .next t →
    ∃ u, exec .msPoll t = .next u ∧
      u.out = t.out ++ [.response [if t.snap = s.snap then 0x00 else 0x01]]

/-! ### Whole-machine rules -/

/-- Which command writes which element (R25): each element keeps its value under every command its row
does not name, and no command touches the outside world's side. -/
def Obligations.OnlyItsOwnersWriteEachElement : Prop :=
  ∀ (i : Instr) (s t : State), exec i s = .next t →
    ((∀ report, i ≠ .kbdReport report) → { t.keyboard with kbUpdated := s.kbUpdated } = s.keyboard) ∧
    ((∀ report, i ≠ .kbdReport report) → i ≠ .kbdPoll → t.kbUpdated = s.kbUpdated) ∧
    ((∀ report, i ≠ .msReport report) → { t.mouse with copy := s.copy } = s.mouse) ∧
    (i ≠ .msPoll → t.copy = s.copy) ∧ t.outside = s.outside

/-- No step changes MX, MY, PHASE or BTN but one that executes an MS_REPORT, or one that releases reset,
which returns them to their reset values (R213). -/
def Obligations.OnlyMouseReportsAndResetMoveTheAccumulator : Prop :=
  ∀ s t : State, step s = .next t →
    (t.mx = s.mx ∧ t.my = s.my ∧ t.phase = s.phase ∧ t.btn = s.btn) ∨
    (∃ report u, fetch s = .command (.msReport report) u ∧ exec (.msReport report) u = .next t) ∨
    (∃ c r, s.resetIn = .pulse 0 c :: r ∧ t.mx = (State.resetWith c).mx ∧
      t.my = (State.resetWith c).my ∧ t.phase = (State.resetWith c).phase ∧
      t.btn = (State.resetWith c).btn)

/-- ISOLATION: what a run leaves in the mouse's elements is what its mouse commands alone leave there, and
what it leaves in the keyboard's elements is what its other commands alone leave (R71, R235). -/
def Obligations.KeyboardAndMouseDoNotAffectEachOther : Prop :=
  ∀ (cs : List Instr) (s t : State), execAll cs s = .next t →
    (∃ u, execAll (cs.filter isMouseCommand) s = .next u ∧ u.mouse = t.mouse) ∧
    (∃ v, execAll (cs.filter fun i => !isMouseCommand i) s = .next v ∧ v.keyboard = t.keyboard)

/-- A mouse report commutes with every keyboard command: in either order they leave the same state and the
same outputs, so a claim need not fix their order (R67 (e)). -/
def Obligations.MouseReportCommutesWithKeyboardCommands : Prop :=
  ∀ (report : List Byte) (i : Instr) (s : State), isMouseCommand i = false →
    execAll [.msReport report, i] s = execAll [i, .msReport report] s

/-- WEAK FAIRNESS: a pending command executes after finitely many others (R287, the spec's assumption; its
bound by the free values is the model's form, log entry 2). The number of steps until it executes is bounded
by a function of the decisions taken so far alone, however much the other port has to serve, for every
arbiter; a run that is refused before has no more steps. -/
def Obligations.PendingCommandExecutesAfterFinitelyManyOthers : Prop :=
  ∃ bound : Nat → Nat, ∀ (s : State) (p : Port) (i : Instr) (rest : List Byte),
    (∀ r ∈ s.resetIn, r = .inactive) → decode (s.portIn p) = .ok (i, rest) → i.port = p →
    ∃ k, k ≤ bound s.arbCount ∧
      ((∃ t u, stepAll k s = .next t ∧ t.portIn p = s.portIn p ∧ fetch t = .command i u ∧
          u.portIn p = rest) ∨
        ∃ r, stepAll k s = .refused r)
end

