-- ==== Sys2Proof/Laws/Arbiter.lean ====
section
/-! SUPPORT. The arbitration: every sequence of decisions the free values can give is weakly fair, and
every weakly fair sequence is one they can give (spec/60_exceptions.md R287). -/

namespace Sys2Proof.Machine

open Sys2Proof

theorem eq_or_eq_otherPort (p q : Port) : p = q ∨ p = otherPort q := by
  cases p <;> cases q <;> decide

theorem eq_otherPort_of_ne {p q : Port} (h : p ≠ q) : p = otherPort q :=
  (eq_or_eq_otherPort p q).resolve_left h

variable (first : Port) (run : Nat → Nat)

/-- While its run lasts, a decision serves the run's port and leaves one decision fewer. -/
theorem turnAt_add {n k : Nat} (h : k ≤ (turnAt first run n).left) :
    turnAt first run (n + k) =
      { turnAt first run n with left := (turnAt first run n).left - k } := by
  induction k with
  | zero => rfl
  | succ k ih =>
    have hk := ih (by omega)
    show (turnAt first run (n + k)).next run = _
    obtain ⟨m, hm⟩ : ∃ m, (turnAt first run n).left - k = m + 1 := ⟨_, (Nat.succ_pred_eq_of_pos (by omega)).symm⟩
    rw [hk, hm]
    simp only [Turn.next, Turn.mk.injEq, true_and]
    omega

/-- The decision after a run's last one serves the other port. -/
theorem turnAt_other (n : Nat) :
    (turnAt first run (n + (turnAt first run n).left + 1)).port = otherPort (turnAt first run n).port := by
  show ((turnAt first run (n + (turnAt first run n).left)).next run).port = _
  rw [turnAt_add first run (Nat.le_refl _)]
  simp [Turn.next]

/-- WEAK FAIRNESS: each port is served by one of the decisions from any one on to the first of the next
run, whatever the free values are. -/
theorem turnAt_fair (n : Nat) (p : Port) :
    ∃ k, k ≤ (turnAt first run n).left + 1 ∧ (turnAt first run (n + k)).port = p := by
  rcases eq_or_eq_otherPort p (turnAt first run n).port with h | h
  · exact ⟨0, by omega, h.symm⟩
  · exact ⟨_, Nat.le_refl _, (turnAt_other first run n).trans h.symm⟩

/-- Between one decision and the next of the other port every decision serves the same port. -/
theorem exists_next_change {f : Nat → Port} (hf : ∀ n p, ∃ k, n ≤ k ∧ f k = p) (n : Nat) :
    ∃ k, f (n + k + 1) = otherPort (f n) ∧ ∀ j, j ≤ k → f (n + j) = f n := by
  have hex : ∃ j, f (n + j) ≠ f n := by
    obtain ⟨m, hm, hp⟩ := hf n (otherPort (f n))
    refine ⟨m - n, ?_⟩
    rw [show n + (m - n) = m by omega, hp]
    cases f n <;> decide
  classical
  have h0 : Nat.find hex ≠ 0 := fun h => by
    have := Nat.find_spec hex
    rw [h] at this
    exact this rfl
  obtain ⟨k, hk⟩ := Nat.exists_eq_succ_of_ne_zero h0
  refine ⟨k, ?_, fun j hj => ?_⟩
  · have := Nat.find_spec hex
    rw [hk] at this
    exact eq_otherPort_of_ne this
  · by_contra hne
    exact absurd (Nat.find_min' hex hne) (by omega)

/-- NOTHING FAIR IS SHUT OUT: every sequence of decisions that serves each port again and again is the one
of some first port and some runs. -/
theorem exists_turnAt_of_fair {f : Nat → Port} (hf : ∀ n p, ∃ k, n ≤ k ∧ f k = p) :
    ∃ run, ∀ n, (turnAt (f 0) run n).port = f n := by
  choose len hlen hsame using exists_next_change hf
  let start : Nat → Nat := fun k => Nat.rec 0 (fun _ m => m + len m + 1) k
  have hstart : ∀ k, start (k + 1) = start k + len (start k) + 1 := fun _ => rfl
  refine ⟨fun k => len (start k), fun n => ?_⟩
  suffices h : let t := turnAt (f 0) (fun k => len (start k)) n
      t.port = f (start t.run) ∧ t.left ≤ len (start t.run) ∧
        n + t.left = start t.run + len (start t.run) by
    obtain ⟨h1, h2, h3⟩ := h
    rw [h1, ← hsame (start (turnAt (f 0) (fun k => len (start k)) n).run)
      (len (start (turnAt (f 0) (fun k => len (start k)) n).run) -
        (turnAt (f 0) (fun k => len (start k)) n).left) (by omega)]
    congr 1
    omega
  induction n with
  | zero => exact ⟨rfl, Nat.le_refl _, rfl⟩
  | succ n ih =>
    obtain ⟨h1, h2, h3⟩ := ih
    simp only [turnAt]
    generalize turnAt (f 0) (fun k => len (start k)) n = t at h1 h2 h3 ⊢
    obtain ⟨p, r, l⟩ := t
    simp only at h1 h2 h3
    cases l with
    | zero =>
      refine ⟨?_, Nat.le_refl _, ?_⟩
      · simp only [Turn.next, hstart]
        rw [hlen, h1]
      · simp only [Turn.next, hstart]
        omega
    | succ l => exact ⟨h1, by simp only [Turn.next]; omega, by simp only [Turn.next]; omega⟩

end Sys2Proof.Machine
end

