-- ==== Sys2Proof/Laws/Decode.lean ====
section
/-! SUPPORT. The length rule of the framing (spec/30_encoding.md R86, R89), read both ways. -/

namespace Sys2Proof

/-- The payload of a stream that begins with a report's length byte and payload. -/
theorem takePayload_encodePayload {report : List Byte} (h : report.length ≤ 255) (rest : List Byte) :
    takePayload (encodePayload report ++ rest) = some (report, rest) := by
  have hl : (BitVec.ofNat 8 report.length).toNat = report.length := by
    simp only [BitVec.toNat_ofNat]; omega
  simp [takePayload, encodePayload, hl]

/-- A payload taken is one whose length byte and bytes stand at the front. -/
theorem takePayload_eq_some {bs report rest : List Byte} (h : takePayload bs = some (report, rest)) :
    report.length ≤ 255 ∧ bs = encodePayload report ++ rest := by
  cases bs with
  | nil => simp [takePayload] at h
  | cons l bs =>
    have hl := l.isLt
    simp only [takePayload] at h
    split at h
    · rename_i hle
      simp only [Option.some.injEq, Prod.mk.injEq] at h
      obtain ⟨rfl, rfl⟩ := h
      have hlen : (bs.take l.toNat).length = l.toNat := by simp; omega
      refine ⟨by omega, ?_⟩
      rw [encodePayload, hlen]
      simp
    · exact absurd h (by simp)

theorem decodeReport_eq_ok {mk : List Byte → Instr} {bs rest : List Byte} {i : Instr}
    (h : decodeReport mk bs = .ok (i, rest)) :
    ∃ report, i = mk report ∧ report.length ≤ 255 ∧ bs = encodePayload report ++ rest := by
  unfold decodeReport at h
  split at h
  · rename_i report rest' hp
    simp only [Except.ok.injEq, Prod.mk.injEq] at h
    obtain ⟨rfl, rfl⟩ := h
    exact ⟨report, rfl, takePayload_eq_some hp⟩
  · exact absurd h (by simp)

/-- Decoding a report's length byte and payload gives the report. -/
theorem decodeReport_encodePayload (mk : List Byte → Instr) {report : List Byte}
    (h : report.length ≤ 255) (rest : List Byte) :
    decodeReport mk (encodePayload report ++ rest) = .ok (mk report, rest) := by
  rw [decodeReport, takePayload_encodePayload h]

theorem decodeReport_ne_reserved (mk : List Byte → Instr) (bs : List Byte) (op : Byte) :
    decodeReport mk bs ≠ .error (.reservedOpcode op) := by
  unfold decodeReport
  split <;> simp

end Sys2Proof
end

