-- ==== Sys2Proof/Laws/State.lean ====
section
/-! SUPPORT. One lemma per field per update of the state, each true by unfolding the update once, so that
no later proof unfolds a record update. -/

namespace Sys2Proof.Machine

open Sys2Proof

variable (s : State)

/-! ### `Append` -/

@[simp] theorem State.append_cfg (code : Byte) : (s.append code).cfg = s.cfg := rfl
@[simp] theorem State.append_keymap (code : Byte) : (s.append code).keymap = s.keymap := rfl
@[simp] theorem State.append_modlatch (code : Byte) : (s.append code).modlatch = s.modlatch := rfl
@[simp] theorem State.append_numLock (code : Byte) : (s.append code).numLock = s.numLock := rfl
@[simp] theorem State.append_capsLock (code : Byte) : (s.append code).capsLock = s.capsLock := rfl
@[simp] theorem State.append_scrollLock (code : Byte) : (s.append code).scrollLock = s.scrollLock := rfl
@[simp] theorem State.append_ledLast (code : Byte) : (s.append code).ledLast = s.ledLast := rfl
@[simp] theorem State.append_obuf (code : Byte) : (s.append code).obuf = obufAppend s.obuf code := rfl
@[simp] theorem State.append_kbUpdated (code : Byte) : (s.append code).kbUpdated = true := rfl
@[simp] theorem State.append_mx (code : Byte) : (s.append code).mx = s.mx := rfl
@[simp] theorem State.append_my (code : Byte) : (s.append code).my = s.my := rfl
@[simp] theorem State.append_phase (code : Byte) : (s.append code).phase = s.phase := rfl
@[simp] theorem State.append_btn (code : Byte) : (s.append code).btn = s.btn := rfl
@[simp] theorem State.append_snap (code : Byte) : (s.append code).snap = s.snap := rfl
@[simp] theorem State.append_copy (code : Byte) : (s.append code).copy = s.copy := rfl
@[simp] theorem State.append_producerIn (code : Byte) : (s.append code).producerIn = s.producerIn := rfl
@[simp] theorem State.append_consumerIn (code : Byte) : (s.append code).consumerIn = s.consumerIn := rfl
@[simp] theorem State.append_resetIn (code : Byte) : (s.append code).resetIn = s.resetIn := rfl
@[simp] theorem State.append_arbCount (code : Byte) : (s.append code).arbCount = s.arbCount := rfl
@[simp] theorem State.append_out (code : Byte) : (s.append code).out = s.out := rfl

/-! ### a latch write -/

@[simp] theorem State.setLatch_cfg (j : Modifier) (v : Bool) : (s.setLatch j v).cfg = s.cfg := rfl
@[simp] theorem State.setLatch_keymap (j : Modifier) (v : Bool) : (s.setLatch j v).keymap = s.keymap := rfl
@[simp] theorem State.setLatch_modlatch (j : Modifier) (v : Bool) : (s.setLatch j v).modlatch = s.modlatch.put j v := rfl
@[simp] theorem State.setLatch_numLock (j : Modifier) (v : Bool) : (s.setLatch j v).numLock = s.numLock := rfl
@[simp] theorem State.setLatch_capsLock (j : Modifier) (v : Bool) : (s.setLatch j v).capsLock = s.capsLock := rfl
@[simp] theorem State.setLatch_scrollLock (j : Modifier) (v : Bool) : (s.setLatch j v).scrollLock = s.scrollLock := rfl
@[simp] theorem State.setLatch_ledLast (j : Modifier) (v : Bool) : (s.setLatch j v).ledLast = s.ledLast := rfl
@[simp] theorem State.setLatch_obuf (j : Modifier) (v : Bool) : (s.setLatch j v).obuf = s.obuf := rfl
@[simp] theorem State.setLatch_kbUpdated (j : Modifier) (v : Bool) : (s.setLatch j v).kbUpdated = s.kbUpdated := rfl
@[simp] theorem State.setLatch_mx (j : Modifier) (v : Bool) : (s.setLatch j v).mx = s.mx := rfl
@[simp] theorem State.setLatch_my (j : Modifier) (v : Bool) : (s.setLatch j v).my = s.my := rfl
@[simp] theorem State.setLatch_phase (j : Modifier) (v : Bool) : (s.setLatch j v).phase = s.phase := rfl
@[simp] theorem State.setLatch_btn (j : Modifier) (v : Bool) : (s.setLatch j v).btn = s.btn := rfl
@[simp] theorem State.setLatch_snap (j : Modifier) (v : Bool) : (s.setLatch j v).snap = s.snap := rfl
@[simp] theorem State.setLatch_copy (j : Modifier) (v : Bool) : (s.setLatch j v).copy = s.copy := rfl
@[simp] theorem State.setLatch_producerIn (j : Modifier) (v : Bool) : (s.setLatch j v).producerIn = s.producerIn := rfl
@[simp] theorem State.setLatch_consumerIn (j : Modifier) (v : Bool) : (s.setLatch j v).consumerIn = s.consumerIn := rfl
@[simp] theorem State.setLatch_resetIn (j : Modifier) (v : Bool) : (s.setLatch j v).resetIn = s.resetIn := rfl
@[simp] theorem State.setLatch_arbCount (j : Modifier) (v : Bool) : (s.setLatch j v).arbCount = s.arbCount := rfl
@[simp] theorem State.setLatch_out (j : Modifier) (v : Bool) : (s.setLatch j v).out = s.out := rfl

/-! ### `EmitLED` -/

@[simp] theorem State.emitLed_cfg (v : Byte) : (s.emitLed v).cfg = s.cfg := rfl
@[simp] theorem State.emitLed_keymap (v : Byte) : (s.emitLed v).keymap = s.keymap := rfl
@[simp] theorem State.emitLed_modlatch (v : Byte) : (s.emitLed v).modlatch = s.modlatch := rfl
@[simp] theorem State.emitLed_numLock (v : Byte) : (s.emitLed v).numLock = s.numLock := rfl
@[simp] theorem State.emitLed_capsLock (v : Byte) : (s.emitLed v).capsLock = s.capsLock := rfl
@[simp] theorem State.emitLed_scrollLock (v : Byte) : (s.emitLed v).scrollLock = s.scrollLock := rfl
@[simp] theorem State.emitLed_ledLast (v : Byte) : (s.emitLed v).ledLast = s.ledLast := rfl
@[simp] theorem State.emitLed_obuf (v : Byte) : (s.emitLed v).obuf = s.obuf := rfl
@[simp] theorem State.emitLed_kbUpdated (v : Byte) : (s.emitLed v).kbUpdated = s.kbUpdated := rfl
@[simp] theorem State.emitLed_mx (v : Byte) : (s.emitLed v).mx = s.mx := rfl
@[simp] theorem State.emitLed_my (v : Byte) : (s.emitLed v).my = s.my := rfl
@[simp] theorem State.emitLed_phase (v : Byte) : (s.emitLed v).phase = s.phase := rfl
@[simp] theorem State.emitLed_btn (v : Byte) : (s.emitLed v).btn = s.btn := rfl
@[simp] theorem State.emitLed_snap (v : Byte) : (s.emitLed v).snap = s.snap := rfl
@[simp] theorem State.emitLed_copy (v : Byte) : (s.emitLed v).copy = s.copy := rfl
@[simp] theorem State.emitLed_producerIn (v : Byte) : (s.emitLed v).producerIn = s.producerIn := rfl
@[simp] theorem State.emitLed_consumerIn (v : Byte) : (s.emitLed v).consumerIn = s.consumerIn := rfl
@[simp] theorem State.emitLed_resetIn (v : Byte) : (s.emitLed v).resetIn = s.resetIn := rfl
@[simp] theorem State.emitLed_arbCount (v : Byte) : (s.emitLed v).arbCount = s.arbCount := rfl
@[simp] theorem State.emitLed_out (v : Byte) : (s.emitLed v).out = s.out ++ [.led v] := rfl

/-! ### `Respond` -/

@[simp] theorem State.respond_cfg (bytes : List Byte) : (s.respond bytes).cfg = s.cfg := rfl
@[simp] theorem State.respond_keymap (bytes : List Byte) : (s.respond bytes).keymap = s.keymap := rfl
@[simp] theorem State.respond_modlatch (bytes : List Byte) : (s.respond bytes).modlatch = s.modlatch := rfl
@[simp] theorem State.respond_numLock (bytes : List Byte) : (s.respond bytes).numLock = s.numLock := rfl
@[simp] theorem State.respond_capsLock (bytes : List Byte) : (s.respond bytes).capsLock = s.capsLock := rfl
@[simp] theorem State.respond_scrollLock (bytes : List Byte) : (s.respond bytes).scrollLock = s.scrollLock := rfl
@[simp] theorem State.respond_ledLast (bytes : List Byte) : (s.respond bytes).ledLast = s.ledLast := rfl
@[simp] theorem State.respond_obuf (bytes : List Byte) : (s.respond bytes).obuf = s.obuf := rfl
@[simp] theorem State.respond_kbUpdated (bytes : List Byte) : (s.respond bytes).kbUpdated = s.kbUpdated := rfl
@[simp] theorem State.respond_mx (bytes : List Byte) : (s.respond bytes).mx = s.mx := rfl
@[simp] theorem State.respond_my (bytes : List Byte) : (s.respond bytes).my = s.my := rfl
@[simp] theorem State.respond_phase (bytes : List Byte) : (s.respond bytes).phase = s.phase := rfl
@[simp] theorem State.respond_btn (bytes : List Byte) : (s.respond bytes).btn = s.btn := rfl
@[simp] theorem State.respond_snap (bytes : List Byte) : (s.respond bytes).snap = s.snap := rfl
@[simp] theorem State.respond_copy (bytes : List Byte) : (s.respond bytes).copy = s.copy := rfl
@[simp] theorem State.respond_producerIn (bytes : List Byte) : (s.respond bytes).producerIn = s.producerIn := rfl
@[simp] theorem State.respond_consumerIn (bytes : List Byte) : (s.respond bytes).consumerIn = s.consumerIn := rfl
@[simp] theorem State.respond_resetIn (bytes : List Byte) : (s.respond bytes).resetIn = s.resetIn := rfl
@[simp] theorem State.respond_arbCount (bytes : List Byte) : (s.respond bytes).arbCount = s.arbCount := rfl
@[simp] theorem State.respond_out (bytes : List Byte) : (s.respond bytes).out = s.out ++ [.response bytes] := rfl

/-! ### the clear of KB_UPDATED -/

@[simp] theorem State.clearUpdated_cfg : (s.clearUpdated).cfg = s.cfg := rfl
@[simp] theorem State.clearUpdated_keymap : (s.clearUpdated).keymap = s.keymap := rfl
@[simp] theorem State.clearUpdated_modlatch : (s.clearUpdated).modlatch = s.modlatch := rfl
@[simp] theorem State.clearUpdated_numLock : (s.clearUpdated).numLock = s.numLock := rfl
@[simp] theorem State.clearUpdated_capsLock : (s.clearUpdated).capsLock = s.capsLock := rfl
@[simp] theorem State.clearUpdated_scrollLock : (s.clearUpdated).scrollLock = s.scrollLock := rfl
@[simp] theorem State.clearUpdated_ledLast : (s.clearUpdated).ledLast = s.ledLast := rfl
@[simp] theorem State.clearUpdated_obuf : (s.clearUpdated).obuf = s.obuf := rfl
@[simp] theorem State.clearUpdated_kbUpdated : (s.clearUpdated).kbUpdated = false := rfl
@[simp] theorem State.clearUpdated_mx : (s.clearUpdated).mx = s.mx := rfl
@[simp] theorem State.clearUpdated_my : (s.clearUpdated).my = s.my := rfl
@[simp] theorem State.clearUpdated_phase : (s.clearUpdated).phase = s.phase := rfl
@[simp] theorem State.clearUpdated_btn : (s.clearUpdated).btn = s.btn := rfl
@[simp] theorem State.clearUpdated_snap : (s.clearUpdated).snap = s.snap := rfl
@[simp] theorem State.clearUpdated_copy : (s.clearUpdated).copy = s.copy := rfl
@[simp] theorem State.clearUpdated_producerIn : (s.clearUpdated).producerIn = s.producerIn := rfl
@[simp] theorem State.clearUpdated_consumerIn : (s.clearUpdated).consumerIn = s.consumerIn := rfl
@[simp] theorem State.clearUpdated_resetIn : (s.clearUpdated).resetIn = s.resetIn := rfl
@[simp] theorem State.clearUpdated_arbCount : (s.clearUpdated).arbCount = s.arbCount := rfl
@[simp] theorem State.clearUpdated_out : (s.clearUpdated).out = s.out := rfl

/-! ### the publish of SNAP -/

@[simp] theorem State.publish_cfg : (s.publish).cfg = s.cfg := rfl
@[simp] theorem State.publish_keymap : (s.publish).keymap = s.keymap := rfl
@[simp] theorem State.publish_modlatch : (s.publish).modlatch = s.modlatch := rfl
@[simp] theorem State.publish_numLock : (s.publish).numLock = s.numLock := rfl
@[simp] theorem State.publish_capsLock : (s.publish).capsLock = s.capsLock := rfl
@[simp] theorem State.publish_scrollLock : (s.publish).scrollLock = s.scrollLock := rfl
@[simp] theorem State.publish_ledLast : (s.publish).ledLast = s.ledLast := rfl
@[simp] theorem State.publish_obuf : (s.publish).obuf = s.obuf := rfl
@[simp] theorem State.publish_kbUpdated : (s.publish).kbUpdated = s.kbUpdated := rfl
@[simp] theorem State.publish_mx : (s.publish).mx = s.mx := rfl
@[simp] theorem State.publish_my : (s.publish).my = s.my := rfl
@[simp] theorem State.publish_phase : (s.publish).phase = s.phase := rfl
@[simp] theorem State.publish_btn : (s.publish).btn = s.btn := rfl
@[simp] theorem State.publish_snap : (s.publish).snap = packSnapshot s.btn s.phase s.mx s.my := rfl
@[simp] theorem State.publish_copy : (s.publish).copy = s.copy := rfl
@[simp] theorem State.publish_producerIn : (s.publish).producerIn = s.producerIn := rfl
@[simp] theorem State.publish_consumerIn : (s.publish).consumerIn = s.consumerIn := rfl
@[simp] theorem State.publish_resetIn : (s.publish).resetIn = s.resetIn := rfl
@[simp] theorem State.publish_arbCount : (s.publish).arbCount = s.arbCount := rfl
@[simp] theorem State.publish_out : (s.publish).out = s.out := rfl

/-! ### the mouse's motion -/

@[simp] theorem moveMouse_cfg (r : MsFields) : (moveMouse r s).cfg = s.cfg := rfl
@[simp] theorem moveMouse_keymap (r : MsFields) : (moveMouse r s).keymap = s.keymap := rfl
@[simp] theorem moveMouse_modlatch (r : MsFields) : (moveMouse r s).modlatch = s.modlatch := rfl
@[simp] theorem moveMouse_numLock (r : MsFields) : (moveMouse r s).numLock = s.numLock := rfl
@[simp] theorem moveMouse_capsLock (r : MsFields) : (moveMouse r s).capsLock = s.capsLock := rfl
@[simp] theorem moveMouse_scrollLock (r : MsFields) : (moveMouse r s).scrollLock = s.scrollLock := rfl
@[simp] theorem moveMouse_ledLast (r : MsFields) : (moveMouse r s).ledLast = s.ledLast := rfl
@[simp] theorem moveMouse_obuf (r : MsFields) : (moveMouse r s).obuf = s.obuf := rfl
@[simp] theorem moveMouse_kbUpdated (r : MsFields) : (moveMouse r s).kbUpdated = s.kbUpdated := rfl
@[simp] theorem moveMouse_mx (r : MsFields) : (moveMouse r s).mx = clampMove s.mx (sext8 r.dx) s.cfg.pW := rfl
@[simp] theorem moveMouse_my (r : MsFields) : (moveMouse r s).my = clampMove s.my (-(sext8 r.dy)) s.cfg.pH := rfl
@[simp] theorem moveMouse_phase (r : MsFields) :
    (moveMouse r s).phase =
      match r.scroll with
      | some sc => scrollBy s.phase (sext8 sc)
      | none => s.phase := rfl
@[simp] theorem moveMouse_btn (r : MsFields) : (moveMouse r s).btn = r.buttons := rfl
@[simp] theorem moveMouse_snap (r : MsFields) : (moveMouse r s).snap = s.snap := rfl
@[simp] theorem moveMouse_copy (r : MsFields) : (moveMouse r s).copy = s.copy := rfl
@[simp] theorem moveMouse_producerIn (r : MsFields) : (moveMouse r s).producerIn = s.producerIn := rfl
@[simp] theorem moveMouse_consumerIn (r : MsFields) : (moveMouse r s).consumerIn = s.consumerIn := rfl
@[simp] theorem moveMouse_resetIn (r : MsFields) : (moveMouse r s).resetIn = s.resetIn := rfl
@[simp] theorem moveMouse_arbCount (r : MsFields) : (moveMouse r s).arbCount = s.arbCount := rfl
@[simp] theorem moveMouse_out (r : MsFields) : (moveMouse r s).out = s.out := rfl

/-! ### the commit -/

@[simp] theorem commit_cfg (k : Scan) : (commit k).cfg = k.st.cfg := rfl
@[simp] theorem commit_keymap (k : Scan) : (commit k).keymap = k.w &&& k.obs := rfl
@[simp] theorem commit_modlatch (k : Scan) : (commit k).modlatch = k.st.modlatch := rfl
@[simp] theorem commit_numLock (k : Scan) : (commit k).numLock = k.st.numLock := rfl
@[simp] theorem commit_capsLock (k : Scan) : (commit k).capsLock = k.st.capsLock := rfl
@[simp] theorem commit_scrollLock (k : Scan) : (commit k).scrollLock = k.st.scrollLock := rfl
@[simp] theorem commit_ledLast (k : Scan) : (commit k).ledLast = k.st.ledLast := rfl
@[simp] theorem commit_obuf (k : Scan) : (commit k).obuf = k.st.obuf := rfl
@[simp] theorem commit_kbUpdated (k : Scan) : (commit k).kbUpdated = k.st.kbUpdated := rfl
@[simp] theorem commit_mx (k : Scan) : (commit k).mx = k.st.mx := rfl
@[simp] theorem commit_my (k : Scan) : (commit k).my = k.st.my := rfl
@[simp] theorem commit_phase (k : Scan) : (commit k).phase = k.st.phase := rfl
@[simp] theorem commit_btn (k : Scan) : (commit k).btn = k.st.btn := rfl
@[simp] theorem commit_snap (k : Scan) : (commit k).snap = k.st.snap := rfl
@[simp] theorem commit_copy (k : Scan) : (commit k).copy = k.st.copy := rfl
@[simp] theorem commit_producerIn (k : Scan) : (commit k).producerIn = k.st.producerIn := rfl
@[simp] theorem commit_consumerIn (k : Scan) : (commit k).consumerIn = k.st.consumerIn := rfl
@[simp] theorem commit_resetIn (k : Scan) : (commit k).resetIn = k.st.resetIn := rfl
@[simp] theorem commit_arbCount (k : Scan) : (commit k).arbCount = k.st.arbCount := rfl
@[simp] theorem commit_out (k : Scan) : (commit k).out = k.st.out := rfl

/-! ### the bytes taken from a port -/

@[simp] theorem State.setPortIn_cfg (p : Port) (bs : List Byte) : (s.setPortIn p bs).cfg = s.cfg := by
  cases p <;> rfl
@[simp] theorem State.setPortIn_keymap (p : Port) (bs : List Byte) : (s.setPortIn p bs).keymap = s.keymap := by
  cases p <;> rfl
@[simp] theorem State.setPortIn_modlatch (p : Port) (bs : List Byte) : (s.setPortIn p bs).modlatch = s.modlatch := by
  cases p <;> rfl
@[simp] theorem State.setPortIn_numLock (p : Port) (bs : List Byte) : (s.setPortIn p bs).numLock = s.numLock := by
  cases p <;> rfl
@[simp] theorem State.setPortIn_capsLock (p : Port) (bs : List Byte) : (s.setPortIn p bs).capsLock = s.capsLock := by
  cases p <;> rfl
@[simp] theorem State.setPortIn_scrollLock (p : Port) (bs : List Byte) : (s.setPortIn p bs).scrollLock = s.scrollLock := by
  cases p <;> rfl
@[simp] theorem State.setPortIn_ledLast (p : Port) (bs : List Byte) : (s.setPortIn p bs).ledLast = s.ledLast := by
  cases p <;> rfl
@[simp] theorem State.setPortIn_obuf (p : Port) (bs : List Byte) : (s.setPortIn p bs).obuf = s.obuf := by
  cases p <;> rfl
@[simp] theorem State.setPortIn_kbUpdated (p : Port) (bs : List Byte) : (s.setPortIn p bs).kbUpdated = s.kbUpdated := by
  cases p <;> rfl
@[simp] theorem State.setPortIn_mx (p : Port) (bs : List Byte) : (s.setPortIn p bs).mx = s.mx := by
  cases p <;> rfl
@[simp] theorem State.setPortIn_my (p : Port) (bs : List Byte) : (s.setPortIn p bs).my = s.my := by
  cases p <;> rfl
@[simp] theorem State.setPortIn_phase (p : Port) (bs : List Byte) : (s.setPortIn p bs).phase = s.phase := by
  cases p <;> rfl
@[simp] theorem State.setPortIn_btn (p : Port) (bs : List Byte) : (s.setPortIn p bs).btn = s.btn := by
  cases p <;> rfl
@[simp] theorem State.setPortIn_snap (p : Port) (bs : List Byte) : (s.setPortIn p bs).snap = s.snap := by
  cases p <;> rfl
@[simp] theorem State.setPortIn_copy (p : Port) (bs : List Byte) : (s.setPortIn p bs).copy = s.copy := by
  cases p <;> rfl
@[simp] theorem State.setPortIn_resetIn (p : Port) (bs : List Byte) : (s.setPortIn p bs).resetIn = s.resetIn := by
  cases p <;> rfl
@[simp] theorem State.setPortIn_arbCount (p : Port) (bs : List Byte) : (s.setPortIn p bs).arbCount = s.arbCount := by
  cases p <;> rfl
@[simp] theorem State.setPortIn_out (p : Port) (bs : List Byte) : (s.setPortIn p bs).out = s.out := by
  cases p <;> rfl
@[simp] theorem State.portIn_setPortIn (p : Port) (bs : List Byte) : (s.setPortIn p bs).portIn p = bs := by
  cases p <;> rfl
@[simp] theorem State.portIn_setPortIn_other (p : Port) (bs : List Byte) :
    (s.setPortIn p bs).portIn (otherPort p) = s.portIn (otherPort p) := by
  cases p <;> rfl
@[simp] theorem State.portIn_producer : s.portIn .producer = s.producerIn := rfl
@[simp] theorem State.portIn_consumer : s.portIn .consumer = s.consumerIn := rfl

/-! ### reset -/

@[simp] theorem State.release_cfg (c : Config) : (s.release c).cfg = c := rfl
@[simp] theorem State.release_keymap (c : Config) : (s.release c).keymap = 0 := rfl
@[simp] theorem State.release_modlatch (c : Config) : (s.release c).modlatch = ModLatch.clear := rfl
@[simp] theorem State.release_numLock (c : Config) : (s.release c).numLock = false := rfl
@[simp] theorem State.release_capsLock (c : Config) : (s.release c).capsLock = false := rfl
@[simp] theorem State.release_scrollLock (c : Config) : (s.release c).scrollLock = false := rfl
@[simp] theorem State.release_ledLast (c : Config) : (s.release c).ledLast = 0 := rfl
@[simp] theorem State.release_obuf (c : Config) : (s.release c).obuf = List.replicate c.pN 0 := rfl
@[simp] theorem State.release_kbUpdated (c : Config) : (s.release c).kbUpdated = false := rfl
@[simp] theorem State.release_mx (c : Config) : (s.release c).mx = screenCentre c.pW := rfl
@[simp] theorem State.release_my (c : Config) : (s.release c).my = screenCentre c.pH := rfl
@[simp] theorem State.release_phase (c : Config) : (s.release c).phase = 0 := rfl
@[simp] theorem State.release_btn (c : Config) : (s.release c).btn = 0 := rfl
@[simp] theorem State.release_snap (c : Config) : (s.release c).snap = Snapshot.zero := rfl
@[simp] theorem State.release_copy (c : Config) : (s.release c).copy = Snapshot.zero := rfl
@[simp] theorem State.release_producerIn (c : Config) : (s.release c).producerIn = s.producerIn := rfl
@[simp] theorem State.release_consumerIn (c : Config) : (s.release c).consumerIn = s.consumerIn := rfl
@[simp] theorem State.release_resetIn (c : Config) : (s.release c).resetIn = s.resetIn := rfl
@[simp] theorem State.release_arbCount (c : Config) : (s.release c).arbCount = s.arbCount := rfl
@[simp] theorem State.release_out (c : Config) : (s.release c).out = s.out := rfl

/-! ### a code or NONE -/

@[simp] theorem State.appendEntry_some (code : Byte) : s.appendEntry (some code) = s.append code := rfl
@[simp] theorem State.appendEntry_none : s.appendEntry none = s := rfl
@[simp] theorem State.reject_eq : s.reject = s := rfl

end Sys2Proof.Machine
end

