-- ==== Sys2Proof/Laws/Ops.lean ====
section
/-! SUPPORT. What the shared operations do, each said once: key sets, latches, the Output Buffer append,
the snapshot and its comparison. -/

namespace Sys2Proof.Machine

open Sys2Proof

/-! ### Key sets -/

@[simp] theorem keyIn_zero (c : Byte) : keyIn 0#256 c = false := by
  simp [keyIn]

@[simp] theorem keyIn_and (a b : KeySet) (c : Byte) : keyIn (a &&& b) c = (keyIn a c && keyIn b c) := by
  simp [keyIn]

@[simp] theorem keyIn_keySet (a : KeySet) (c d : Byte) : keyIn (keySet a c) d = (keyIn a d || c == d) := by
  have hd := d.isLt
  have hone : (1#256 <<< c.toNat).getLsbD d.toNat = (c == d) := by
    rw [BitVec.getLsbD_shiftLeft, BitVec.getLsbD_one, Bool.eq_iff_iff]
    simp only [BitVec.toNat_eq, Bool.and_eq_true, Bool.not_eq_true', decide_eq_true_eq, beq_iff_eq,
      decide_eq_false_iff_not]
    omega
  simp [keyIn, keySet, hone]

/-- Key sets that agree on every code are equal. -/
theorem keySet_ext {a b : KeySet} (h : ∀ c : Byte, keyIn a c = keyIn b c) : a = b := by
  apply BitVec.eq_of_getLsbD_eq
  intro i hi
  have := h (BitVec.ofNat 8 i)
  simpa [keyIn, Nat.mod_eq_of_lt hi] using this

/-- The commit's AND of the whole sets is the AND of their 8-bit segments (R130). -/
theorem segment_and (a b : KeySet) (n : Nat) : segment (a &&& b) n = segment a n &&& segment b n := by
  apply BitVec.eq_of_getLsbD_eq
  intro i hi
  simp [segment, hi]

/-- Code c is bit `c & 7` of segment `c >> 3` (R30). -/
theorem segment_bit (a : KeySet) (c : Byte) :
    (segment a (c.toNat / 8)).getLsbD (c.toNat % 8) = keyIn a c := by
  have h : c.toNat % 8 < 8 := Nat.mod_lt _ (by omega)
  have e : 8 * (c.toNat / 8) + c.toNat % 8 = c.toNat := Nat.div_add_mod _ _
  simp [segment, keyIn, h, e]

/-! ### Latches -/

@[simp] theorem ModLatch.get_put (l : ModLatch) (j k : Modifier) (v : Bool) :
    (l.put j v).get k = if k = j then v else l.get k := by
  cases j <;> cases k <;> rfl

/-- Writing a latch with the value it has changes nothing. -/
theorem ModLatch.put_get (l : ModLatch) (j : Modifier) : l.put j (l.get j) = l := by
  cases j <;> rfl

/-- Latches that agree on every modifier are equal. -/
theorem ModLatch.ext_get {l l' : ModLatch} (h : ∀ j, l.get j = l'.get j) : l = l' := by
  cases l; cases l'
  have h0 := h .lCtrl
  have h1 := h .lAlt
  have h2 := h .lGui
  have h3 := h .rCtrl
  have h4 := h .rAlt
  have h5 := h .rGui
  simp_all [ModLatch.get]

@[simp] theorem ModLatch.get_clear (j : Modifier) : ModLatch.clear.get j = false := by
  cases j <;> rfl

theorem Modifier.mem_all (j : Modifier) : j ∈ Modifier.all := by
  cases j <;> decide

/-! ### The Output Buffer -/

@[simp] theorem obufAppend_length (buf : List Byte) (code : Byte) :
    (obufAppend buf code).length = buf.length := by
  cases buf <;> simp [obufAppend]

@[simp] theorem obufAppendAll_nil (buf : List Byte) : obufAppendAll buf [] = buf := rfl

@[simp] theorem obufAppendAll_cons (buf : List Byte) (c : Byte) (cs : List Byte) :
    obufAppendAll buf (c :: cs) = obufAppendAll (obufAppend buf c) cs := rfl

theorem obufAppendAll_append (buf cs ds : List Byte) :
    obufAppendAll buf (cs ++ ds) = obufAppendAll (obufAppendAll buf cs) ds := by
  simp [obufAppendAll]

@[simp] theorem obufAppendAll_length (buf codes : List Byte) :
    (obufAppendAll buf codes).length = buf.length := by
  induction codes generalizing buf with
  | nil => rfl
  | cons c cs ih => simp [ih]

/-- The state after appending codes in order: the buffer, and KB_UPDATED if there was one (R231, R234). -/
theorem appends_eq (codes : List Byte) (s : State) :
    codes.foldl State.append s =
      { s with obuf := obufAppendAll s.obuf codes, kbUpdated := s.kbUpdated || !codes.isEmpty } := by
  induction codes generalizing s with
  | nil => simp
  | cons c cs ih => rw [List.foldl_cons, ih]; simp [State.append]

/-- Appending a table entry is appending the codes it holds. -/
theorem appendEntry_eq (e : Option Byte) (s : State) :
    s.appendEntry e = e.toList.foldl State.append s := by
  cases e <;> rfl

/-! ### Snapshots and coordinates -/

/-- The byte-for-byte comparison is inequality (R255). -/
theorem Snapshot.differs_eq (p q : Snapshot) : p.differs q = decide (p ≠ q) := by
  cases p; cases q
  simp only [Snapshot.differs, Snapshot.mk.injEq, ne_eq]
  rw [Bool.eq_iff_iff]
  simp only [Bool.or_eq_true, bne_iff_ne, decide_eq_true_eq]
  tauto

theorem lo8_toNat (v : Coord) : (lo8 v).toNat = v.toNat % 256 := by
  simp [lo8]

theorem hi8_toNat (v : Coord) : (hi8 v).toNat = v.toNat / 256 := by
  have := v.isLt
  simp only [hi8, BitVec.extractLsb'_toNat, Nat.shiftRight_eq_div_pow]
  omega

/-- Byte 0 of a snapshot as a number: the button nibble and sixteen times the phase (R84). -/
theorem packButtons_toNat (btn : Byte) (phase : Phase) :
    (packButtons btn phase).toNat = btn.toNat % 16 + 16 * phase.toNat := by
  revert btn phase
  decide +kernel

theorem screenCentre_toNat (lim : Coord) : (screenCentre lim).toNat = lim.toNat / 2 := by
  have := lim.isLt
  simp only [screenCentre, BitVec.toNat_ofNat]
  omega

end Sys2Proof.Machine
end

