-- ==== Sys2Proof/Laws/Keyboard.lean ====
section
/-! SUPPORT. What the phases of KBD_REPORT do, each said once (spec/40_keyboard.md, 41_keyboard_lut.md). -/

namespace Sys2Proof.Machine

open Sys2Proof

/-! ### What routing writes, and what it emits -/

/-- `t` differs from `s` at most in the buffer, KB_UPDATED and the lock bits: all that routing writes. -/
structure RouteFrame (s t : State) : Prop where
  keymap : t.keymap = s.keymap
  modlatch : t.modlatch = s.modlatch
  ledLast : t.ledLast = s.ledLast
  mouse : t.mouse = s.mouse
  outside : t.outside = s.outside
  out : t.out = s.out

theorem RouteFrame.refl (s : State) : RouteFrame s s := ⟨rfl, rfl, rfl, rfl, rfl, rfl⟩

theorem RouteFrame.trans {s t u : State} (h : RouteFrame s t) (h' : RouteFrame t u) : RouteFrame s u :=
  ⟨h'.keymap.trans h.keymap, h'.modlatch.trans h.modlatch, h'.ledLast.trans h.ledLast,
    h'.mouse.trans h.mouse, h'.outside.trans h.outside, h'.out.trans h.out⟩

theorem RouteFrame.cfg {s t : State} (h : RouteFrame s t) : t.cfg = s.cfg :=
  congrArg OutsideView.cfg h.outside

/-- From `s` to `t` exactly `codes` were appended, in order. -/
structure Emits (codes : List Byte) (s t : State) : Prop where
  obuf : t.obuf = obufAppendAll s.obuf codes
  kbUpdated : t.kbUpdated = (s.kbUpdated || !codes.isEmpty)

theorem Emits.nil (s : State) : Emits [] s s := ⟨rfl, by simp⟩

theorem Emits.trans {a b : List Byte} {s t u : State} (h : Emits a s t) (h' : Emits b t u) :
    Emits (a ++ b) s u where
  obuf := by rw [h'.obuf, h.obuf, obufAppendAll_append]
  kbUpdated := by rw [h'.kbUpdated, h.kbUpdated]; cases a <;> simp

/-! ### Routing -/

/-- A code that is no lock key appends its entry and does nothing else. -/
theorem route_of_not_lock {c : Byte} (h : isLockKey c = false) (shift : Bool) (s : State) :
    route c shift s = s.appendEntry (keyCode s.cfg s.numLock s.capsLock shift c) := by
  simp [route, h]

theorem route_of_lock {c : Byte} (h : isLockKey c = true) (shift : Bool) (s : State) :
    route c shift s = lockKey c s := by
  simp [route, h]

theorem appendEntry_frame (s : State) (e : Option Byte) : RouteFrame s (s.appendEntry e) := by
  cases e <;> exact ⟨rfl, rfl, rfl, rfl, rfl, rfl⟩

theorem appendEntry_emits (s : State) (e : Option Byte) : Emits e.toList s (s.appendEntry e) := by
  cases e with
  | none => exact Emits.nil s
  | some c => exact ⟨rfl, by simp⟩

@[simp] theorem appendEntry_numLock (s : State) (e : Option Byte) :
    (s.appendEntry e).numLock = s.numLock := by cases e <;> rfl

@[simp] theorem appendEntry_capsLock (s : State) (e : Option Byte) :
    (s.appendEntry e).capsLock = s.capsLock := by cases e <;> rfl

@[simp] theorem appendEntry_scrollLock (s : State) (e : Option Byte) :
    (s.appendEntry e).scrollLock = s.scrollLock := by cases e <;> rfl

/-- LockKey writes lock bits only: it appends nothing (R155). -/
theorem lockKey_frame (c : Byte) (s : State) : RouteFrame s (lockKey c s) ∧ Emits [] s (lockKey c s) := by
  unfold lockKey
  split_ifs <;> exact ⟨⟨rfl, rfl, rfl, rfl, rfl, rfl⟩, ⟨rfl, by simp⟩⟩

/-- The num-lock bit after LockKey: flipped by its enabled key (R155). -/
theorem lockKey_numLock (c : Byte) (s : State) :
    (lockKey c s).numLock = (s.numLock ^^ (c == U_NUMLOCK && s.cfg.enabled .numLock)) := by
  by_cases h : c = U_NUMLOCK
  · subst h
    unfold lockKey
    cases s.cfg.enabled .numLock <;> simp
  · rw [beq_eq_false_iff_ne.mpr h]
    unfold lockKey
    split_ifs <;> simp

theorem lockKey_capsLock (c : Byte) (s : State) :
    (lockKey c s).capsLock = (s.capsLock ^^ (c == U_CAPSLOCK && s.cfg.enabled .capsLock)) := by
  by_cases h : c = U_CAPSLOCK
  · subst h
    unfold lockKey
    cases s.cfg.enabled .capsLock <;> simp
  · rw [beq_eq_false_iff_ne.mpr h]
    unfold lockKey
    split_ifs <;> simp

theorem lockKey_scrollLock (c : Byte) (s : State) :
    (lockKey c s).scrollLock = (s.scrollLock ^^ (c == U_SCROLLLOCK && s.cfg.enabled .scrollLock)) := by
  by_cases h : c = U_SCROLLLOCK
  · subst h
    unfold lockKey
    cases s.cfg.enabled .scrollLock <;> simp
  · rw [beq_eq_false_iff_ne.mpr h]
    unfold lockKey
    split_ifs <;> simp

theorem route_frame (c : Byte) (shift : Bool) (s : State) : RouteFrame s (route c shift s) := by
  cases h : isLockKey c with
  | true => rw [route_of_lock h]; exact (lockKey_frame c s).1
  | false => rw [route_of_not_lock h]; exact appendEntry_frame _ _

/-- Route appends at most one code (R150). -/
theorem route_emits (c : Byte) (shift : Bool) (s : State) :
    ∃ codes, codes.length ≤ 1 ∧ Emits codes s (route c shift s) := by
  cases h : isLockKey c with
  | true => rw [route_of_lock h]; exact ⟨[], by simp, (lockKey_frame c s).2⟩
  | false =>
    rw [route_of_not_lock h]
    exact ⟨_, by cases keyCode s.cfg s.numLock s.capsLock shift c <;> simp, appendEntry_emits _ _⟩

/-- Routing one code after another: the frame of the whole. -/
theorem routes_frame (shift : Bool) (keys : List Byte) (s : State) :
    RouteFrame s (keys.foldl (fun v c => route c shift v) s) := by
  induction keys generalizing s with
  | nil => exact RouteFrame.refl s
  | cons c cs ih => exact (route_frame c shift s).trans (ih _)

/-- Routing n codes appends at most n (R145). -/
theorem routes_emit (shift : Bool) (keys : List Byte) (s : State) :
    ∃ codes, codes.length ≤ keys.length ∧ Emits codes s (keys.foldl (fun v c => route c shift v) s) := by
  induction keys generalizing s with
  | nil => exact ⟨[], by simp, Emits.nil s⟩
  | cons c cs ih =>
    obtain ⟨a, ha, ea⟩ := route_emits c shift s
    obtain ⟨b, hb, eb⟩ := ih (route c shift s)
    exact ⟨a ++ b, by simp; omega, ea.trans eb⟩

/-- Routing codes none of which is a lock key leaves the lock bits, and appends each code's entry as the
lock bits gave it at the start. -/
theorem routes_of_no_lock (shift : Bool) (keys : List Byte) (s : State)
    (h : ∀ c ∈ keys, isLockKey c = false) :
    let t := keys.foldl (fun v c => route c shift v) s
    Emits (keys.filterMap (keyCode s.cfg s.numLock s.capsLock shift)) s t ∧
      t.numLock = s.numLock ∧ t.capsLock = s.capsLock ∧ t.scrollLock = s.scrollLock := by
  induction keys generalizing s with
  | nil => exact ⟨Emits.nil s, rfl, rfl, rfl⟩
  | cons c cs ih =>
    have hc := route_of_not_lock (h c (by simp)) shift s
    obtain ⟨e, h1, h2, h3⟩ := ih (route c shift s) fun d hd => h d (by simp [hd])
    have hcfg := (route_frame c shift s).cfg
    have hn : (route c shift s).numLock = s.numLock := by rw [hc]; simp
    have hk : (route c shift s).capsLock = s.capsLock := by rw [hc]; simp
    have hs : (route c shift s).scrollLock = s.scrollLock := by rw [hc]; simp
    rw [hcfg, hn, hk] at e
    have e0 := appendEntry_emits s (keyCode s.cfg s.numLock s.capsLock shift c)
    rw [← hc] at e0
    refine ⟨?_, h1.trans hn, h2.trans hk, h3.trans hs⟩
    have := e0.trans e
    cases hcode : keyCode s.cfg s.numLock s.capsLock shift c <;> simpa [hcode] using this

/-- The num-lock bit after Route: only LockKey changes it (R150, R155). -/
theorem route_numLock (c : Byte) (shift : Bool) (s : State) :
    (route c shift s).numLock = (s.numLock ^^ (c == U_NUMLOCK && s.cfg.enabled .numLock)) := by
  cases h : isLockKey c with
  | true => rw [route_of_lock h, lockKey_numLock]
  | false =>
    have : c ≠ U_NUMLOCK := fun e => by rw [e] at h; exact absurd h (by decide)
    rw [route_of_not_lock h, beq_eq_false_iff_ne.mpr this]
    simp

theorem route_capsLock (c : Byte) (shift : Bool) (s : State) :
    (route c shift s).capsLock = (s.capsLock ^^ (c == U_CAPSLOCK && s.cfg.enabled .capsLock)) := by
  cases h : isLockKey c with
  | true => rw [route_of_lock h, lockKey_capsLock]
  | false =>
    have : c ≠ U_CAPSLOCK := fun e => by rw [e] at h; exact absurd h (by decide)
    rw [route_of_not_lock h, beq_eq_false_iff_ne.mpr this]
    simp

/-- What routing appends depends on the configuration and the two lock bits Route reads alone (R150). -/
theorem routedCodes_congr (shift : Bool) (keys : List Byte) {s t : State} (hc : s.cfg = t.cfg)
    (hn : s.numLock = t.numLock) (hk : s.capsLock = t.capsLock) :
    routedCodes shift keys s = routedCodes shift keys t := by
  induction keys generalizing s t with
  | nil => rfl
  | cons c cs ih =>
    simp only [routedCodes, hc, hn, hk]
    rw [ih ((route_frame c shift s).cfg.trans (hc.trans (route_frame c shift t).cfg.symm))
      (by rw [route_numLock, route_numLock, hn, hc]) (by rw [route_capsLock, route_capsLock, hk, hc])]

/-- Routing one code after another appends `routedCodes`. -/
theorem routedCodes_emits (shift : Bool) (keys : List Byte) (s : State) :
    Emits (routedCodes shift keys s) s (keys.foldl (fun v c => route c shift v) s) := by
  induction keys generalizing s with
  | nil => exact Emits.nil s
  | cons c cs ih =>
    refine Emits.trans ?_ (ih (route c shift s))
    cases h : isLockKey c with
    | true => rw [route_of_lock h]; exact (lockKey_frame c s).2
    | false => rw [route_of_not_lock h]; exact appendEntry_emits _ _

/-! ### Modifier pass -/

/-- Modifier `j` rises in a report with modifier byte `m` (R115). -/
def rises (m : Byte) (s : State) (j : Modifier) : Bool :=
  m.getLsbD j.bit && s.cfg.enabled j.feature && !s.modlatch.get j

/-- The latch of `j` after the pass (R115). -/
def latchAfter (m : Byte) (s : State) (j : Modifier) : Bool :=
  m.getLsbD j.bit && (s.cfg.enabled j.feature || s.modlatch.get j)

/-- One body of the pass: the code if the modifier rises, and its latch (R115). -/
theorem modifierStep_eq (m : Byte) (s : State) (j : Modifier) :
    modifierStep m s j =
      { (if rises m s j then s.append (s.cfg.xcode j.key) else s) with
        modlatch := s.modlatch.put j (latchAfter m s j) } := by
  have hput := s.modlatch.put_get j
  unfold modifierStep rises latchAfter
  cases hb : m.getLsbD j.bit <;> cases hf : s.cfg.enabled j.feature <;>
    cases hl : s.modlatch.get j <;> simp [State.setLatch] <;> rw [← hl, hput]

theorem modifierStep_cfg (m : Byte) (s : State) (j : Modifier) : (modifierStep m s j).cfg = s.cfg := by
  rw [modifierStep_eq]; split <;> rfl

theorem modifierStep_modlatch (m : Byte) (s : State) (j : Modifier) :
    (modifierStep m s j).modlatch = s.modlatch.put j (latchAfter m s j) := by
  rw [modifierStep_eq]

/-- A body of the pass for another modifier does not matter to `k`. -/
theorem modifierStep_other {m : Byte} {s : State} {j k : Modifier} (h : k ≠ j) :
    rises m (modifierStep m s j) k = rises m s k ∧
      latchAfter m (modifierStep m s j) k = latchAfter m s k := by
  constructor <;>
    simp only [rises, latchAfter, modifierStep_cfg, modifierStep_modlatch, ModLatch.get_put, if_neg h]

/-- The pass over any list of different modifiers: what it leaves alone, what it appends, and the latches. -/
theorem modifierFold_spec (m : Byte) (js : List Modifier) (hnd : js.Nodup) (s : State) :
    let t := js.foldl (modifierStep m) s
    Emits ((js.filter (rises m s)).map fun j => s.cfg.xcode j.key) s t ∧
      (∀ k, t.modlatch.get k = if k ∈ js then latchAfter m s k else s.modlatch.get k) ∧
      t = { s with obuf := t.obuf, kbUpdated := t.kbUpdated, modlatch := t.modlatch } := by
  induction js generalizing s with
  | nil => exact ⟨Emits.nil s, fun k => rfl, rfl⟩
  | cons j js ih =>
    obtain ⟨hj, hnd'⟩ := List.nodup_cons.mp hnd
    obtain ⟨e, hl, heq⟩ := ih hnd' (modifierStep m s j)
    have hne : ∀ k ∈ js, k ≠ j := fun k hk hkj => hj (hkj ▸ hk)
    have hstep := modifierStep_eq m s j
    have hcfg := modifierStep_cfg m s j
    have hfil : js.filter (rises m (modifierStep m s j)) = js.filter (rises m s) :=
      List.filter_congr fun k hk => (modifierStep_other (hne k hk)).1
    rw [hfil, hcfg] at e
    have e0 : Emits (if rises m s j then [s.cfg.xcode j.key] else []) s (modifierStep m s j) := by
      rw [hstep]
      cases rises m s j <;> exact ⟨rfl, by simp⟩
    refine ⟨?_, fun k => ?_, ?_⟩
    · have := e0.trans e
      cases hr : rises m s j <;> simpa [List.filter_cons, hr] using this
    · rw [List.foldl_cons, hl k]
      by_cases hk : k ∈ js
      · simp only [hk, if_true, List.mem_cons, or_true]
        exact (modifierStep_other (hne k hk)).2
      · rw [hstep]
        by_cases hkj : k = j
        · subst hkj; simp [hk, ModLatch.get_put]
        · simp [hk, hkj, ModLatch.get_put]
    · rw [List.foldl_cons, heq, hstep]
      cases rises m s j <;> rfl

/-- The modifier pass: it emits the codes of the rising modifiers in order (R115, R116). -/
theorem modifierPass_emits (m : Byte) (s : State) : Emits (modifierCodes m s) s (modifierPass m s) :=
  (modifierFold_spec m Modifier.all (by decide) s).1

/-- The latches after the pass (R115). -/
theorem modifierPass_latch (m : Byte) (s : State) (j : Modifier) :
    (modifierPass m s).modlatch.get j = latchAfter m s j := by
  rw [modifierPass, (modifierFold_spec m Modifier.all (by decide) s).2.1 j, if_pos (Modifier.mem_all j)]

/-- All the pass writes: the buffer, KB_UPDATED and the latches. -/
theorem modifierPass_frame (m : Byte) (s : State) :
    modifierPass m s =
      { s with obuf := (modifierPass m s).obuf, kbUpdated := (modifierPass m s).kbUpdated,
               modlatch := (modifierPass m s).modlatch } :=
  (modifierFold_spec m Modifier.all (by decide) s).2.2

/-- The pass appends at most six codes (R145). -/
theorem modifierCodes_length (m : Byte) (s : State) : (modifierCodes m s).length ≤ 6 := by
  rw [modifierCodes, List.length_map]
  exact List.length_filter_le _ _

/-! ### Processed slots and the rollover check -/

theorem processed_zero (cs : List Byte) : processed (U_EMPTY :: cs) = [] := by
  simp [processed]

theorem processed_cons {c : Byte} (h : c ≠ U_EMPTY) (cs : List Byte) :
    processed (c :: cs) = c :: processed cs :=
  List.takeWhile_cons_of_pos (by simpa using h)

theorem rolloverUntilZero_eq (slots : List Byte) :
    rolloverUntilZero slots = (processed slots).contains U_ROLLOVER := by
  induction slots with
  | nil => rfl
  | cons c cs ih =>
    rw [rolloverUntilZero]
    by_cases h0 : c = U_EMPTY
    · rw [if_pos h0, h0, processed_zero]; rfl
    · rw [if_neg h0, ih, processed_cons h0, List.contains_cons]
      by_cases h1 : c = U_ROLLOVER
      · simp [h1]
      · rw [if_neg h1, beq_eq_false_iff_ne.mpr (Ne.symm h1), Bool.false_or]

/-- The check is the configuration's reading of a rollover report (R120). -/
theorem rolloverCheck_eq (cfg : Config) (slots : List Byte) :
    rolloverCheck cfg.pPhantomScope slots = isRollover cfg slots := by
  unfold rolloverCheck isRollover
  cases cfg.pPhantomScope with
  | allSlots =>
    rw [List.contains_eq_any_beq]
    exact congrArg slots.any (funext fun c => BEq.comm)
  | untilZero => exact rolloverUntilZero_eq slots

/-! ### Key scan -/

/-- Under either reading, one slot's observed and working bits (R125). -/
theorem scanSlot_sets (shift : Bool) (c : Byte) (k : Scan) (d : Byte) :
    keyIn (scanSlot shift c k).obs d = (keyIn k.obs d || c == d) ∧
      keyIn (scanSlot shift c k).w d =
        (keyIn k.w d || (k.st.cfg.pKbCommit == .scanSet && c == d)) := by
  unfold scanSlot
  cases hw : keyIn k.w c with
  | true =>
    refine ⟨by simp, ?_⟩
    by_cases hcd : c = d
    · subst hcd; simp [hw]
    · simp [hcd]
  | false =>
    refine ⟨by simp, ?_⟩
    cases k.st.cfg.pKbCommit <;> simp

theorem scanSlot_frame (shift : Bool) (c : Byte) (k : Scan) :
    RouteFrame k.st (scanSlot shift c k).st := by
  unfold scanSlot
  split
  · exact RouteFrame.refl _
  · exact route_frame c shift k.st

/-- The scan sees only the processed slots (R128). -/
theorem keyScan_processed (shift : Bool) (slots : List Byte) (k : Scan) :
    keyScan shift slots k = (processed slots).foldl (fun q c => scanSlot shift c q) k := by
  induction slots generalizing k with
  | nil => rfl
  | cons c cs ih =>
    rw [keyScan]
    by_cases h : c = U_EMPTY
    · rw [if_pos h, h, processed_zero]; rfl
    · rw [if_neg h, processed_cons h, List.foldl_cons, ih]

theorem scanFold_frame (shift : Bool) (cs : List Byte) (k : Scan) :
    RouteFrame k.st (cs.foldl (fun q c => scanSlot shift c q) k).st := by
  induction cs generalizing k with
  | nil => exact RouteFrame.refl _
  | cons c cs ih => exact (scanSlot_frame shift c k).trans (ih _)

/-- The observed and the working set after the scan (R125, R131, R132). -/
theorem scanFold_sets (shift : Bool) (cs : List Byte) (k : Scan) (d : Byte) :
    keyIn (cs.foldl (fun q c => scanSlot shift c q) k).obs d = (keyIn k.obs d || decide (d ∈ cs)) ∧
      keyIn (cs.foldl (fun q c => scanSlot shift c q) k).w d =
        (keyIn k.w d || (k.st.cfg.pKbCommit == .scanSet && decide (d ∈ cs))) := by
  induction cs generalizing k with
  | nil => simp
  | cons c cs ih =>
    obtain ⟨h1, h2⟩ := ih (scanSlot shift c k)
    obtain ⟨g1, g2⟩ := scanSlot_sets shift c k d
    rw [List.foldl_cons, h1, h2, g1, g2, (scanSlot_frame shift c k).cfg]
    have hdec : decide (d ∈ c :: cs) = (c == d || decide (d ∈ cs)) := by
      rw [Bool.eq_iff_iff]
      simp only [decide_eq_true_eq, List.mem_cons, Bool.or_eq_true, beq_iff_eq]
      exact or_congr_left eq_comm
    rw [hdec]
    cases (k.st.cfg.pKbCommit == .scanSet) <;> simp [Bool.or_assoc]

/-- The rising edges among codes, given the bits down at the start (R125 to R127). -/
def risingAmong (mode : KbCommit) (down : KeySet) (cs : List Byte) : List Byte :=
  match mode with
  | .scanSet => (cs.filter fun c => !keyIn down c).eraseDups
  | .literalAnd => cs.filter fun c => !keyIn down c

theorem risingKeys_eq (cfg : Config) (keymap : KeySet) (slots : List Byte) :
    risingKeys cfg keymap slots = risingAmong cfg.pKbCommit keymap (processed slots) := by
  unfold risingKeys risingAmong
  cases cfg.pKbCommit <;> rfl

theorem risingAmong_cons_held {down : KeySet} {c : Byte} (h : keyIn down c = true) (mode : KbCommit)
    (cs : List Byte) : risingAmong mode down (c :: cs) = risingAmong mode down cs := by
  cases mode <;> simp [risingAmong, h]

theorem risingAmong_cons_fresh {down : KeySet} {c : Byte} (h : keyIn down c = false) (mode : KbCommit)
    (cs : List Byte) :
    risingAmong mode down (c :: cs) =
      c :: risingAmong mode (match mode with | .scanSet => keySet down c | .literalAnd => down) cs := by
  cases mode with
  | literalAnd => simp [risingAmong, h]
  | scanSet =>
    have : (c :: cs).filter (fun d => !keyIn down d) = c :: cs.filter fun d => !keyIn down d := by
      simp [h]
    rw [risingAmong, this, List.eraseDups_cons, List.filter_filter]
    congr 2
    apply List.filter_congr
    intro d _
    rw [keyIn_keySet, Bool.not_or, Bool.and_comm, Bool.beq_comm]

/-- The scan routes the rising edges in slot order (R125, R172). -/
theorem scanFold_routes (shift : Bool) (cs : List Byte) (k : Scan) :
    (cs.foldl (fun q c => scanSlot shift c q) k).st =
      (risingAmong k.st.cfg.pKbCommit k.w cs).foldl (fun v c => route c shift v) k.st := by
  induction cs generalizing k with
  | nil => cases hm : k.st.cfg.pKbCommit <;> simp [risingAmong]
  | cons c cs ih =>
    rw [List.foldl_cons, ih, (scanSlot_frame shift c k).cfg]
    cases hw : keyIn k.w c with
    | true => rw [risingAmong_cons_held hw]; simp [scanSlot, hw]
    | false =>
      rw [risingAmong_cons_fresh hw]
      cases hm : k.st.cfg.pKbCommit <;> simp [scanSlot, hw, hm]

theorem eraseDups_length_le (cs : List Byte) : cs.eraseDups.length ≤ cs.length := by
  induction h : cs.length using Nat.strong_induction_on generalizing cs with
  | _ n ih =>
    cases cs with
    | nil => simp
    | cons c cs =>
      have hl := List.length_filter_le (fun d => !d == c) cs
      have := ih _ (by simp at h; omega) (cs.filter fun d => !d == c) rfl
      rw [List.eraseDups_cons]
      simp at h ⊢
      omega

theorem risingKeys_length (cfg : Config) (keymap : KeySet) (slots : List Byte) :
    (risingKeys cfg keymap slots).length ≤ slots.length := by
  have hp : (processed slots).length ≤ slots.length := (List.takeWhile_prefix _).length_le
  have hf : ((processed slots).filter fun c => !keyIn keymap c).length ≤ slots.length :=
    (List.length_filter_le _ _).trans hp
  rw [risingKeys_eq]
  unfold risingAmong
  cases cfg.pKbCommit with
  | scanSet => exact (eraseDups_length_le _).trans hf
  | literalAnd => exact hf

theorem mem_risingKeys {cfg : Config} {keymap : KeySet} {slots : List Byte} {c : Byte} :
    c ∈ risingKeys cfg keymap slots ↔ c ∈ processed slots ∧ keyIn keymap c = false := by
  unfold risingKeys
  cases cfg.pKbCommit <;> simp

/-! ### LED update -/

/-- LedUpdate leaves LED_LAST at the LED byte, and presents it exactly if it changed (R141). -/
theorem ledUpdate_spec (s : State) :
    ledUpdate s = { s with ledLast := s.led,
                           out := s.out ++ if s.led = s.ledLast then [] else [.led s.led] } := by
  unfold ledUpdate
  by_cases h : s.led = s.ledLast
  · simp [h]
  · simp [h, State.emitLed]

/-! ### The whole report -/

/-- The state a report that is not rejected reaches before its LED update (R110). -/
def kbdBody (r : KbdFields) (s : State) : State :=
  if isRollover s.cfg r.slots then modifierPass r.mods s
  else commit (keyScan (shiftPressed r.mods) r.slots ⟨modifierPass r.mods s, s.keymap, 0⟩)

theorem modifierPass_cfg (m : Byte) (s : State) : (modifierPass m s).cfg = s.cfg :=
  by rw [modifierPass_frame]

theorem modifierPass_keymap (m : Byte) (s : State) : (modifierPass m s).keymap = s.keymap :=
  by rw [modifierPass_frame]

theorem kbdAccepted_eq (r : KbdFields) (s : State) : kbdAccepted r s = ledUpdate (kbdBody r s) := by
  simp only [kbdAccepted, kbdBody, rolloverCheck_eq, modifierPass_cfg, modifierPass_keymap]
  split <;> rfl

/-- The body of a report that is no rollover report: its rising keys routed after the modifier pass, and
the committed bitmap (R125, R130). -/
theorem kbdBody_scan {r : KbdFields} {s : State} (h : isRollover s.cfg r.slots = false) :
    ∃ k : KeySet,
      (∀ c, keyIn k c = (decide (c ∈ processed r.slots) &&
        (s.cfg.pKbCommit == .scanSet || keyIn s.keymap c))) ∧
      kbdBody r s =
        { (risingKeys s.cfg s.keymap r.slots).foldl (fun v c => route c (shiftPressed r.mods) v)
            (modifierPass r.mods s) with keymap := k } := by
  let q := (processed r.slots).foldl (fun q c => scanSlot (shiftPressed r.mods) c q)
    ⟨modifierPass r.mods s, s.keymap, 0⟩
  refine ⟨q.w &&& q.obs, fun c => ?_, ?_⟩
  · obtain ⟨h1, h2⟩ := scanFold_sets (shiftPressed r.mods) (processed r.slots)
      ⟨modifierPass r.mods s, s.keymap, 0⟩ c
    rw [keyIn_and, h1, h2, modifierPass_cfg]
    have h0 : ∀ d : Byte, keyIn (0 : KeySet) d = false := keyIn_zero
    rw [h0]
    cases decide (c ∈ processed r.slots) <;> cases (s.cfg.pKbCommit == .scanSet) <;>
      cases keyIn s.keymap c <;> rfl
  · have hst := scanFold_routes (shiftPressed r.mods) (processed r.slots)
      ⟨modifierPass r.mods s, s.keymap, 0⟩
    rw [kbdBody, h, if_neg (by simp), keyScan_processed, commit, hst, modifierPass_cfg, ← risingKeys_eq]

/-- The fields of a keyboard report exist exactly for 8 bytes (R111). -/
theorem kbdFields_isSome (report : List Byte) :
    (kbdFields report).isSome = true ↔ report.length = 8 := by
  rcases report with _ | ⟨m, _ | ⟨r, _ | ⟨a, _ | ⟨b, _ | ⟨c, _ | ⟨d, _ | ⟨e, _ | ⟨f, _ | ⟨g, tl⟩⟩⟩⟩⟩⟩⟩⟩⟩ <;>
    simp [kbdFields]

/-- The fields of a report with six slots. -/
theorem kbdFields_cons {slots : List Byte} (m r : Byte) (h : slots.length = 6) :
    kbdFields (m :: r :: slots) = some ⟨m, r, slots⟩ := by
  rcases slots with _ | ⟨a, _ | ⟨b, _ | ⟨c, _ | ⟨d, _ | ⟨e, _ | ⟨f, _ | ⟨g, tl⟩⟩⟩⟩⟩⟩⟩ <;> simp_all [kbdFields]

end Sys2Proof.Machine
end

