-- ==== Sys2Proof/Laws/Mouse.lean ====
section
/-! SUPPORT. The arithmetic of the Mouse Decoder as integers (spec/42_mouse.md R204 to R208). -/

namespace Sys2Proof.Machine

open Sys2Proof

/-- `sext_8` is the two's-complement reading (R10). -/
theorem sext8_eq (b : Byte) : sext8 b = b.toInt := by
  simp only [sext8, BitVec.toInt_eq_toNat_cond]
  split <;> split <;> omega

theorem sext8_range (b : Byte) : -128 ≤ sext8 b ∧ sext8 b ≤ 127 := by
  have := b.isLt
  simp only [sext8]
  split <;> omega

/-- A motion to the right or down is clamped at the bound (R205). -/
theorem clampMove_pos {p lim : Coord} {d : Int} (h : 0 < d) :
    ((clampMove p d lim).toNat : Int) = min (p.toNat + d) lim.toNat := by
  have := p.isLt
  have := lim.isLt
  simp only [clampMove, h, if_true, BitVec.toNat_ofInt]
  omega

/-- A motion to the left or up, or none, is clamped at 0 (R205). -/
theorem clampMove_nonpos {p lim : Coord} {d : Int} (h : d ≤ 0) :
    ((clampMove p d lim).toNat : Int) = max (p.toNat + d) 0 := by
  have := p.isLt
  have h' : ¬ 0 < d := by omega
  simp only [clampMove, h', if_false, BitVec.toNat_ofInt]
  omega

/-- A coordinate on the screen stays on it (R210). -/
theorem clampMove_le {p lim : Coord} {d : Int} (h : p.toNat ≤ lim.toNat) :
    (clampMove p d lim).toNat ≤ lim.toNat := by
  rcases Int.lt_or_le 0 d with hd | hd
  · have := clampMove_pos (p := p) (lim := lim) hd; omega
  · have := clampMove_nonpos (p := p) (lim := lim) hd; omega

/-- The scroll phase moves modulo 16 (R208). -/
theorem scrollBy_toNat (phase : Phase) (d : Int) :
    ((scrollBy phase d).toNat : Int) = (phase.toNat + d) % 16 := by
  simp only [scrollBy, BitVec.toNat_ofInt]
  omega

/-- The fields of a mouse report exist exactly for 3 and 6 bytes (R201). -/
theorem msFields_isSome (report : List Byte) :
    (msFields report).isSome = true ↔ report.length = 3 ∨ report.length = 6 := by
  rcases report with _ | ⟨b, _ | ⟨dx, _ | ⟨dy, _ | ⟨r, _ | ⟨q, _ | ⟨sc, _ | ⟨x, tl⟩⟩⟩⟩⟩⟩⟩ <;> simp [msFields]

end Sys2Proof.Machine
end

