-- ==== Sys2Proof/Laws/PerInstr.lean ====
section
/-! SUPPORT. Facts about every command as a term, one lemma per constructor: the opcode stands first in
the encoding, and the encoding of a well-formed command fits the longest command
(spec/30_encoding.md R86). -/

namespace Sys2Proof.Laws.EncodingShape

open Sys2Proof

def Statement (i : Instr) : Prop :=
  (encode i).head? = some i.opcode ∧ (i.wf = true → (encode i).length ≤ maxCommandBytes)

theorem kbdReport (report : List Byte) : Statement (.kbdReport report) := by
  refine ⟨rfl, fun h => ?_⟩
  have : report.length ≤ 255 := by simpa [Instr.wf] using h
  simp only [encode, encodePayload, List.length_cons, maxCommandBytes]
  omega

theorem msReport (report : List Byte) : Statement (.msReport report) := by
  refine ⟨rfl, fun h => ?_⟩
  have : report.length ≤ 255 := by simpa [Instr.wf] using h
  simp only [encode, encodePayload, List.length_cons, maxCommandBytes]
  omega

theorem kbdPoll : Statement .kbdPoll := ⟨rfl, fun _ => by decide⟩

theorem kbdRead : Statement .kbdRead := ⟨rfl, fun _ => by decide⟩

theorem msPoll : Statement .msPoll := ⟨rfl, fun _ => by decide⟩

theorem msRead : Statement .msRead := ⟨rfl, fun _ => by decide⟩

end Sys2Proof.Laws.EncodingShape
end

