-- ==== Sys2Proof/Laws/Step.lean ====
section
/-! SUPPORT. What each command and a step can do, said once: the inversion lemmas the claims rest on. -/

namespace Sys2Proof.Machine

open Sys2Proof

/-! ### The commands -/

theorem exec_kbdReport_of_fields {report : List Byte} {r : KbdFields} (h : kbdFields report = some r)
    (s : State) : exec (.kbdReport report) s = .next (ledUpdate (kbdBody r s)) := by
  simp [exec, execKbdReport, h, kbdAccepted_eq]

theorem exec_msReport_of_fields {report : List Byte} {r : MsFields} (h : msFields report = some r)
    (s : State) : exec (.msReport report) s = .next (moveMouse r s).publish := by
  simp [exec, execMsReport, h]

/-- Every command completes (R270): the answer is a next state. -/
theorem exec_next (i : Instr) (s : State) : ∃ t, exec i s = .next t := by
  cases i with
  | kbdReport report => simp only [exec, execKbdReport]; split <;> exact ⟨_, rfl⟩
  | msReport report => simp only [exec, execMsReport]; split <;> exact ⟨_, rfl⟩
  | kbdPoll => exact ⟨_, rfl⟩
  | kbdRead => exact ⟨_, rfl⟩
  | msPoll => exact ⟨_, rfl⟩
  | msRead => exact ⟨_, rfl⟩

/-- A keyboard report's next state: rejected unchanged, or its body and LED update. -/
theorem exec_kbdReport_cases {report : List Byte} {s t : State} (h : exec (.kbdReport report) s = .next t) :
    (kbdFields report = none ∧ t = s) ∨
      ∃ r, kbdFields report = some r ∧ t = ledUpdate (kbdBody r s) := by
  cases hf : kbdFields report with
  | none => left; exact ⟨rfl, by simpa [exec, execKbdReport, hf] using h.symm⟩
  | some r =>
    right
    rw [exec_kbdReport_of_fields hf] at h
    exact ⟨r, rfl, by simpa using h.symm⟩

/-- A mouse report's next state: rejected unchanged, or moved and published. -/
theorem exec_msReport_cases {report : List Byte} {s t : State} (h : exec (.msReport report) s = .next t) :
    (msFields report = none ∧ t = s) ∨
      ∃ r, msFields report = some r ∧ t = (moveMouse r s).publish := by
  cases hf : msFields report with
  | none => left; exact ⟨rfl, by simpa [exec, execMsReport, hf] using h.symm⟩
  | some r =>
    right
    rw [exec_msReport_of_fields hf] at h
    exact ⟨r, rfl, by simpa using h.symm⟩

/-- The body of a keyboard report: the mouse, the outside world, LED_LAST and the outputs stay, and the
codes of the rising modifiers and then at most one code per slot are appended (R145, R146). -/
theorem kbdBody_spec (r : KbdFields) (s : State) :
    (kbdBody r s).mouse = s.mouse ∧ (kbdBody r s).outside = s.outside ∧
      (kbdBody r s).ledLast = s.ledLast ∧ (kbdBody r s).out = s.out ∧
      (∀ j, (kbdBody r s).modlatch.get j = latchAfter r.mods s j) ∧
      ∃ codes, codes.length ≤ r.slots.length ∧ Emits (modifierCodes r.mods s ++ codes) s (kbdBody r s) := by
  have hp := modifierPass_frame r.mods s
  have hm : (modifierPass r.mods s).mouse = s.mouse := by rw [hp]; rfl
  have ho : (modifierPass r.mods s).outside = s.outside := by rw [hp]; rfl
  have hl : (modifierPass r.mods s).ledLast = s.ledLast := by rw [hp]
  have hu : (modifierPass r.mods s).out = s.out := by rw [hp]
  have he := modifierPass_emits r.mods s
  cases hr : isRollover s.cfg r.slots with
  | true =>
    have hb : kbdBody r s = modifierPass r.mods s := by simp [kbdBody, hr]
    rw [hb]
    exact ⟨hm, ho, hl, hu, modifierPass_latch _ _, [], by simp, by simpa using he⟩
  | false =>
    obtain ⟨k, -, hb⟩ := kbdBody_scan hr
    have hf := routes_frame (shiftPressed r.mods) (risingKeys s.cfg s.keymap r.slots)
      (modifierPass r.mods s)
    obtain ⟨codes, hc, hec⟩ := routes_emit (shiftPressed r.mods) (risingKeys s.cfg s.keymap r.slots)
      (modifierPass r.mods s)
    have het := he.trans hec
    rw [hb]
    refine ⟨hf.mouse.trans hm, hf.outside.trans ho, hf.ledLast.trans hl, hf.out.trans hu,
      fun j => ?_, codes, hc.trans (risingKeys_length _ _ _), het.obuf, het.kbUpdated⟩
    exact (congrArg (·.get j) hf.modlatch).trans (modifierPass_latch _ _ j)

/-- What a command appends is `commandCodes`, and it sets KB_UPDATED exactly if that is something; the one
command that clears KB_UPDATED is set aside (R251). -/
theorem exec_emits {i : Instr} {s t : State} (hi : i ≠ .kbdPoll) (h : exec i s = .next t) :
    Emits (commandCodes i s) s t := by
  cases i with
  | kbdReport report =>
    cases hf : kbdFields report with
    | none =>
      simp only [exec, execKbdReport, hf] at h
      cases h
      simpa [commandCodes, hf] using Emits.nil s
    | some r =>
      rw [exec_kbdReport_of_fields hf] at h
      cases h
      have he := modifierPass_emits r.mods s
      have hb : Emits (commandCodes (.kbdReport report) s) s (kbdBody r s) := by
        cases hr : isRollover s.cfg r.slots with
        | true => simpa [commandCodes, hf, hr, kbdBody] using he
        | false =>
          obtain ⟨k, -, hk⟩ := kbdBody_scan hr
          have hp := modifierPass_frame r.mods s
          have hc : routedCodes (shiftPressed r.mods) (risingKeys s.cfg s.keymap r.slots) s =
              routedCodes (shiftPressed r.mods) (risingKeys s.cfg s.keymap r.slots)
                (modifierPass r.mods s) :=
            routedCodes_congr _ _ (modifierPass_cfg _ _).symm (by rw [hp]) (by rw [hp])
          have het := he.trans (routedCodes_emits (shiftPressed r.mods)
            (risingKeys s.cfg s.keymap r.slots) (modifierPass r.mods s))
          rw [hk]
          simp only [commandCodes, hf, hr, Bool.false_eq_true, if_false, hc]
          exact ⟨het.obuf, het.kbUpdated⟩
      rw [ledUpdate_spec]
      exact ⟨hb.obuf, hb.kbUpdated⟩
  | msReport report =>
    rcases exec_msReport_cases h with ⟨-, rfl⟩ | ⟨r, -, rfl⟩ <;> exact ⟨rfl, by simp [commandCodes]⟩
  | kbdPoll => exact absurd rfl hi
  | kbdRead => cases h; exact ⟨rfl, by simp [commandCodes]⟩
  | msPoll => cases h; exact ⟨rfl, by simp [commandCodes]⟩
  | msRead => cases h; exact ⟨rfl, by simp [commandCodes]⟩

/-- No command touches the outside world's side or the configuration. -/
theorem exec_outside {i : Instr} {s t : State} (h : exec i s = .next t) : t.outside = s.outside := by
  cases i with
  | kbdReport report =>
    rcases exec_kbdReport_cases h with ⟨-, rfl⟩ | ⟨r, -, rfl⟩
    · rfl
    · rw [ledUpdate_spec]; exact (kbdBody_spec r s).2.1
  | msReport report =>
    rcases exec_msReport_cases h with ⟨-, rfl⟩ | ⟨r, -, rfl⟩ <;> rfl
  | kbdPoll => cases h; rfl
  | kbdRead => cases h; rfl
  | msPoll => cases h; rfl
  | msRead => cases h; rfl

/-- The commands of the keyboard leave the mouse's elements. -/
theorem exec_mouse_of_keyboard {i : Instr} {s t : State} (hi : isMouseCommand i = false)
    (h : exec i s = .next t) : t.mouse = s.mouse := by
  cases i with
  | kbdReport report =>
    rcases exec_kbdReport_cases h with ⟨-, rfl⟩ | ⟨r, -, rfl⟩
    · rfl
    · rw [ledUpdate_spec]; exact (kbdBody_spec r s).1
  | msReport report => simp [isMouseCommand] at hi
  | kbdPoll => cases h; rfl
  | kbdRead => cases h; rfl
  | msPoll => simp [isMouseCommand] at hi
  | msRead => simp [isMouseCommand] at hi

/-- The commands of the mouse leave the keyboard's elements. -/
theorem exec_keyboard_of_mouse {i : Instr} {s t : State} (hi : isMouseCommand i = true)
    (h : exec i s = .next t) : t.keyboard = s.keyboard := by
  cases i with
  | kbdReport report => simp [isMouseCommand] at hi
  | msReport report =>
    rcases exec_msReport_cases h with ⟨-, rfl⟩ | ⟨r, -, rfl⟩ <;> rfl
  | kbdPoll => simp [isMouseCommand] at hi
  | kbdRead => simp [isMouseCommand] at hi
  | msPoll => cases h; rfl
  | msRead => cases h; rfl

/-! ### The step -/

/-- A port with a decodable command is ready. -/
theorem portReady_of_ok {bs rest : List Byte} {i : Instr} (h : decode bs = .ok (i, rest)) :
    portReady bs = true := by
  simp [portReady, h]

theorem portReady_of_reserved {bs : List Byte} {op : Byte}
    (h : decode bs = .error (.reservedOpcode op)) : portReady bs = true := by
  simp [portReady, h]

/-- A next state of a step is a command's, or what a quiet step leaves. -/
theorem step_cases {s t : State} (h : step s = .next t) :
    (∃ i u, fetch s = .command i u ∧ exec i u = .next t) ∨ fetch s = .quiet t := by
  unfold step at h
  split at h
  · exact .inl ⟨_, _, ‹_›, h⟩
  · right; cases h; assumption
  · exact absurd h (by simp)

/-- A command served is the first of its own port, and serving it takes its bytes and nothing else. -/
theorem serve_command {p : Port} {s u : State} {i : Instr} (h : serve p s = .command i u) :
    i.port = p ∧ ∃ rest, decode (s.portIn p) = .ok (i, rest) ∧ u = s.setPortIn p rest := by
  unfold serve at h
  split at h
  · split at h
    · rename_i i' rest hd hp
      cases h
      exact ⟨hp, rest, hd, rfl⟩
    · exact absurd h (by simp)
  · exact absurd h (by simp)
  · exact absurd h (by simp)

theorem serve_quiet {p : Port} {s t : State} (h : serve p s = .quiet t) : t = s := by
  unfold serve at h
  split at h
  · split at h <;> exact absurd h (by simp)
  · exact absurd h (by simp)
  · cases h; rfl

/-- The choice of a port changes at most the count of decisions. -/
theorem choosePort_some {s t : State} {p : Port} (h : choosePort s = some (p, t)) :
    t = { s with arbCount := t.arbCount } := by
  unfold choosePort at h
  split at h <;> simp at h <;> obtain ⟨-, rfl⟩ := h <;> rfl

/-- A fetched command: at its own port's front, its bytes taken, and beside them at most the reset input
and the count of decisions changed. -/
theorem fetch_command {s u : State} {i : Instr} (h : fetch s = .command i u) :
    ∃ rest r n, decode (s.portIn i.port) = .ok (i, rest) ∧
      u = { s with resetIn := r, arbCount := n }.setPortIn i.port rest := by
  have key : ∀ v : State, arbitrate v = .command i u →
      ∃ rest n, decode (v.portIn i.port) = .ok (i, rest) ∧
        u = { v with arbCount := n }.setPortIn i.port rest := by
    intro v hv
    unfold arbitrate at hv
    split at hv
    · rename_i p w hc
      obtain ⟨hp, rest, hd, rfl⟩ := serve_command hv
      have hw := choosePort_some hc
      subst hp
      refine ⟨rest, w.arbCount, ?_, ?_⟩
      · rw [hw] at hd; cases hq : i.port <;> simpa [hq, State.portIn] using hd
      · rw [← hw]
    · exact absurd hv (by simp)
  unfold fetch at h
  split at h
  · obtain ⟨rest, n, hd, hu⟩ := key s h
    exact ⟨rest, s.resetIn, n, hd, hu⟩
  · rename_i r hr
    obtain ⟨rest, n, hd, hu⟩ := key _ h
    exact ⟨rest, r, n, by cases hq : i.port <;> simpa [hq, State.portIn] using hd, hu⟩
  · exact absurd h (by simp)
  · split at h <;> exact absurd h (by simp)

/-- A quiet step: only the reset input and the count of decisions change, or reset is released. -/
theorem fetch_quiet {s t : State} (h : fetch s = .quiet t) :
    (∃ r n, t = { s with resetIn := r, arbCount := n }) ∨
      ∃ c r, s.resetIn = .pulse 0 c :: r ∧ c.wf = true ∧ t = { s with resetIn := r }.release c := by
  have key : ∀ v : State, arbitrate v = .quiet t → ∃ n, t = { v with arbCount := n } := by
    intro v hv
    unfold arbitrate at hv
    split at hv
    · rename_i p w hc
      exact ⟨w.arbCount, by rw [serve_quiet hv]; exact choosePort_some hc⟩
    · cases hv; exact ⟨t.arbCount, rfl⟩
  unfold fetch at h
  split at h
  · obtain ⟨n, hn⟩ := key s h
    exact .inl ⟨s.resetIn, n, hn⟩
  · obtain ⟨n, hn⟩ := key _ h
    exact .inl ⟨_, n, hn⟩
  · cases h
    exact .inl ⟨_, s.arbCount, rfl⟩
  · rename_i c r hr
    split at h
    · rename_i hw
      cases h
      exact .inr ⟨c, r, hr, hw, rfl⟩
    · exact absurd h (by simp)

/-! ### Runs -/

theorem execAll_cons {i : Instr} {cs : List Instr} {s t : State} (h : execAll (i :: cs) s = .next t) :
    ∃ u, exec i s = .next u ∧ execAll cs u = .next t := by
  obtain ⟨u, hu⟩ := exec_next i s
  rw [execAll, hu] at h
  exact ⟨u, hu, h⟩

theorem execAll_cons_of_next {i : Instr} {cs : List Instr} {s u : State} (h : exec i s = .next u) :
    execAll (i :: cs) s = execAll cs u := by
  rw [execAll, h]

end Sys2Proof.Machine
end

