-- ==== Sys2Proof/Machine/Assembler.lean ====
section
/-! DEFINITION. The textual syntax and the pseudo-instructions of the commands
(spec/30_encoding.md R94, R95): a reader of one line, total and rejecting by name, which gives the
command and the port it is presented at. Text is a list of characters. What R94 leaves open of the
syntax is DESIGN CHOICE, log entry 13. -/

namespace Sys2Proof.Machine

open Sys2Proof

/-! ### Pseudo-instructions (R95) -/

/-- `kbd_keys m, k0[, k1 ... k5]`: the missing slots are 0x00 (R95). -/
def kbdKeys (m : Byte) (keys : List Byte) : Instr :=
  .kbdReport (m :: 0 :: keys ++ List.replicate (6 - keys.length) 0)

/-- `kbd_release` (R95). -/
def kbdRelease : Instr := .kbdReport [0, 0, 0, 0, 0, 0, 0, 0]

/-- `kbd_rollover m` (R95). -/
def kbdRollover (m : Byte) : Instr := .kbdReport [m, 0, 1, 1, 1, 1, 1, 1]

/-- `ms_move dx, dy` (R95). -/
def msMove (dx dy : Byte) : Instr := .msReport [0, dx, dy]

/-- `ms_scroll s` (R95). -/
def msScroll (sc : Byte) : Instr := .msReport [0, 0, 0, 0, 0, sc]

/-! ### Characters and fields -/

/-- Why a line has no encoding. -/
inductive AsmError where
  | unknownMnemonic
  | badOperand
  | wrongOperandCount
  deriving DecidableEq, Repr

/-- A space or a tab. -/
def isBlank (c : Char) : Bool := c == ' ' || c == '\t'

/-- The text without blanks at either end. -/
def trimBlanks (cs : List Char) : List Char :=
  ((cs.dropWhile isBlank).reverse.dropWhile isBlank).reverse

/-- The pieces of a text between the separators. -/
def splitAtChar (sep : Char) : List Char → List (List Char)
  | [] => [[]]
  | c :: cs =>
    if c == sep then [] :: splitAtChar sep cs
    else
      match splitAtChar sep cs with
      | [] => [[c]]
      | piece :: more => (c :: piece) :: more

/-- The value of a digit in a base up to 16. -/
def digitVal (base : Nat) (c : Char) : Option Nat :=
  let v :=
    if '0'.toNat ≤ c.toNat ∧ c.toNat ≤ '9'.toNat then c.toNat - '0'.toNat
    else if 'a'.toNat ≤ c.toNat ∧ c.toNat ≤ 'f'.toNat then c.toNat - 'a'.toNat + 10
    else if 'A'.toNat ≤ c.toNat ∧ c.toNat ≤ 'F'.toNat then c.toNat - 'A'.toNat + 10
    else base
  if v < base then some v else none

/-- The number a text of digits writes, after what has been read. -/
def readDigits (base : Nat) : Nat → List Char → Option Nat
  | acc, [] => some acc
  | acc, c :: cs => (digitVal base c).bind fun v => readDigits base (acc * base + v) cs

/-- At least one digit. -/
def readNat (base : Nat) : List Char → Option Nat
  | [] => none
  | cs => readDigits base 0 cs

/-- A number: hex with `0x`, decimal, or negative decimal (R94). -/
def readInt : List Char → Option Int
  | '0' :: 'x' :: cs => (readNat 16 cs).map Int.ofNat
  | '-' :: cs => (readNat 10 cs).map fun n => -Int.ofNat n
  | cs => (readNat 10 cs).map Int.ofNat

/-- An unsigned field, 0..255. -/
def readByte (cs : List Char) : Option Byte :=
  (readInt cs).bind fun n => if 0 ≤ n ∧ n ≤ 255 then some (BitVec.ofInt 8 n) else none

/-- A signed field: also -128..-1, stored as its two's-complement byte (R94). -/
def readSigned (cs : List Char) : Option Byte :=
  (readInt cs).bind fun n => if -128 ≤ n ∧ n ≤ 255 then some (BitVec.ofInt 8 n) else none

/-- Every text as an unsigned field. -/
def readBytes : List (List Char) → Option (List Byte)
  | [] => some []
  | f :: fs => (readByte f).bind fun b => (readBytes fs).map fun bs => b :: bs

/-! ### Lines (R94, R95) -/

/-- The comma-separated operands of a line; an empty text has none. -/
def operandTexts (cs : List Char) : List (List Char) :=
  if trimBlanks cs = [] then [] else (splitAtChar ',' cs).map trimBlanks

/-- A command or the error of its operands. -/
def operandsOr : Option Instr → Except AsmError Instr
  | some i => .ok i
  | none => .error .badOperand

/-- `L, b0, ..., b(L-1)` of the raw forms: the length written is the number of bytes that follow. -/
def readRaw (mk : List Byte → Instr) (ops : List (List Char)) : Except AsmError Instr :=
  match readBytes ops with
  | some (l :: bs) => if l.toNat = bs.length then .ok (mk bs) else .error .wrongOperandCount
  | some [] => .error .wrongOperandCount
  | none => .error .badOperand

/-- The command of a mnemonic and its operand texts, by the forms of R94 and R95. -/
def readCommand (mnemonic : List Char) (ops : List (List Char)) : Except AsmError Instr :=
  if mnemonic = "kbd_report".toList then
    if ops.length = 8 then operandsOr ((readBytes ops).map .kbdReport) else .error .wrongOperandCount
  else if mnemonic = "kbd_report_raw".toList then readRaw .kbdReport ops
  else if mnemonic = "ms_report".toList then
    match ops with
    | [b, dx, dy] =>
      operandsOr do return .msReport [← readByte b, ← readSigned dx, ← readSigned dy]
    | [b, dx, r1, dy, r2, sc] =>
      operandsOr do
        return .msReport
          [← readByte b, ← readSigned dx, ← readByte r1, ← readSigned dy, ← readByte r2, ← readSigned sc]
    | _ => .error .wrongOperandCount
  else if mnemonic = "ms_report_raw".toList then readRaw .msReport ops
  else if mnemonic = "kbd_poll".toList then if ops = [] then .ok .kbdPoll else .error .wrongOperandCount
  else if mnemonic = "kbd_read".toList then if ops = [] then .ok .kbdRead else .error .wrongOperandCount
  else if mnemonic = "ms_poll".toList then if ops = [] then .ok .msPoll else .error .wrongOperandCount
  else if mnemonic = "ms_read".toList then if ops = [] then .ok .msRead else .error .wrongOperandCount
  else if mnemonic = "kbd_keys".toList then
    match readBytes ops with
    | some (m :: keys) => if keys.length ≤ 6 then .ok (kbdKeys m keys) else .error .wrongOperandCount
    | some [] => .error .wrongOperandCount
    | none => .error .badOperand
  else if mnemonic = "kbd_release".toList then
    if ops = [] then .ok kbdRelease else .error .wrongOperandCount
  else if mnemonic = "kbd_rollover".toList then
    match ops with
    | [m] => operandsOr ((readByte m).map kbdRollover)
    | _ => .error .wrongOperandCount
  else if mnemonic = "ms_move".toList then
    match ops with
    | [dx, dy] => operandsOr do return msMove (← readSigned dx) (← readSigned dy)
    | _ => .error .wrongOperandCount
  else if mnemonic = "ms_scroll".toList then
    match ops with
    | [sc] => operandsOr ((readSigned sc).map msScroll)
    | _ => .error .wrongOperandCount
  else .error .unknownMnemonic

/-- A line without its comment and port: the mnemonic up to the first blank, then the operands. -/
def readStatement (cs : List Char) : Except AsmError Instr :=
  readCommand (cs.takeWhile fun c => !isBlank c) (operandTexts (cs.dropWhile fun c => !isBlank c))

/-- The command with the port it is presented at where the line names none: its own (R94, R91). -/
def atOwnPort : Except AsmError Instr → Except AsmError (Option (Port × Instr))
  | .ok i => .ok (some (i.port, i))
  | .error e => .error e

/-- The command at the port the line's prefix names. -/
def atPort (p : Port) : Except AsmError Instr → Except AsmError (Option (Port × Instr))
  | .ok i => .ok (some (p, i))
  | .error e => .error e

/-- One line: `;` starts a comment, `P:` or `C:` names the port, a line with nothing else is empty (R94). -/
def readLine (line : List Char) : Except AsmError (Option (Port × Instr)) :=
  match trimBlanks (line.takeWhile fun c => c != ';') with
  | [] => .ok none
  | 'P' :: ':' :: cs => atPort .producer (readStatement (trimBlanks cs))
  | 'C' :: ':' :: cs => atPort .consumer (readStatement (trimBlanks cs))
  | cs => atOwnPort (readStatement cs)

/-- The bytes of a line's command, ready to be presented (R94's encodings). -/
def assembleLine (line : List Char) : Except AsmError (Option (Port × List Byte)) :=
  match readLine line with
  | .ok (some (p, i)) => .ok (some (p, encode i))
  | .ok none => .ok none
  | .error e => .error e

end Sys2Proof.Machine
end

