-- ==== Sys2Proof/Tests/Slice0.lean ====
section
/-! SUPPORT. The model's own tests: the WellFormed smoke, words written out from the spec's encodings,
one-step tests with the expected results of spec/95_test_vectors.md (the vector's id is in each comment),
and for every obligation with hypotheses a witness that meets them all. -/

namespace Sys2Proof.Tests

open Sys2Proof Sys2Proof.Machine

set_option Elab.async false -- the kernel checks one theorem at a time

/-! ### Helpers -/

/-- Start D of spec/95: the state just after reset with the default parameters. -/
abbrev D : State := State.reset

/-- D with another flag word. -/
def dFlags (ff : BitVec 16) : State := State.resetWith { Config.default with pFF := ff }

/-- D with P_KB_COMMIT = LITERAL_AND. -/
def dLiteral : State := State.resetWith { Config.default with pKbCommit := .literalAnd }

/-- D with P_PHANTOM_SCOPE = UNTIL_ZERO. -/
def dUntilZero : State := State.resetWith { Config.default with pPhantomScope := .untilZero }

/-- A value of the next state, where a step or a command gives one. -/
def after {α : Type} (o : Host.Outcome State Fault Refusal) (f : State → α) : Option α :=
  match o with
  | .next t => some (f t)
  | .fault _ => none
  | .refused _ => none

/-- An outcome that gives a state as its next is that next state. -/
theorem next_of_after {o : Host.Outcome State Fault Refusal} {t : State} (h : after o id = some t) :
    o = .next t := by
  cases o <;> simp_all [after]

/-- An outcome that gives some state is a next state. -/
theorem next_of_isSome {o : Host.Outcome State Fault Refusal} (h : (after o id).isSome = true) :
    ∃ t, o = .next t := by
  cases o <;> simp_all [after]

/-- D after `kbd_keys 0, 0x04`: 'a' is down and was appended (spec/95, vector SC-5's result). -/
def aDown : State :=
  { D with keymap := keySet 0 0x04, obuf := [0x01, 0x61, 0, 0, 0, 0, 0, 0], kbUpdated := true }

/-- D after `ms_report 0x01, 10, 5` (spec/95, vector MS-1). -/
def moved : State :=
  { D with mx := 330, my := 235, btn := 0x01, snap := ⟨0x01, 0x4A, 0x01, 0xEB, 0x00⟩ }

/-! ### WellFormed smoke: the one check, for each command that has it -/

/-- A payload of 256 bytes has no length byte (R86): refused. -/
theorem smoke_kbdReport_payload_too_long :
    (Instr.kbdReport (List.replicate 256 0)).wf = false := by decide +kernel

theorem smoke_msReport_payload_too_long :
    (Instr.msReport (List.replicate 256 0)).wf = false := by decide +kernel

/-! ### Decoding: words written out bit by bit from R86 and R88 -/

/-- R94's `01 08 m r k0 .. k5`, in bits, and the next command stays in the stream. -/
theorem test_decode_kbdReport :
    decode [0b00000001, 0b00001000, 0b00000010, 0, 0b00000100, 0, 0, 0, 0, 0, 0b00010001] =
      .ok (.kbdReport [0x02, 0, 0x04, 0, 0, 0, 0, 0], [0x11]) := by decide

/-- MF-3: a malformed report is consumed whole, and the next command starts after it (R89). -/
theorem test_decode_kbdReport_malformed :
    decode [0b00000001, 0b00000111, 0, 0, 0b00000100, 0, 0, 0, 0, 0b00010001] =
      .ok (.kbdReport [0, 0, 0x04, 0, 0, 0, 0], [0x11]) := by decide

/-- MS-7's bytes: the 6-byte form. -/
theorem test_decode_msReport :
    decode [0b00000010, 0b00000110, 0b00000011, 0b11111011, 0b10101010, 0b00000010, 0b01010101,
      0b11111111] = .ok (.msReport [0x03, 0xFB, 0xAA, 0x02, 0x55, 0xFF], []) := by decide

theorem test_decode_msReport_empty : decode [0b00000010, 0b00000000] = .ok (.msReport [], []) := by decide

theorem test_decode_kbdPoll : decode [0b00010000, 0x20] = .ok (.kbdPoll, [0x20]) := by decide
theorem test_decode_kbdRead : decode [0b00010001] = .ok (.kbdRead, []) := by decide
theorem test_decode_msPoll : decode [0b00100000] = .ok (.msPoll, []) := by decide
theorem test_decode_msRead : decode [0b00100001] = .ok (.msRead, []) := by decide

/-- RF-1: reserved opcodes are refused by name. -/
theorem test_decode_reserved :
    decode [0x03, 0] = .error (.reservedOpcode 0x03) ∧ decode [0x00] = .error (.reservedOpcode 0x00) ∧
      decode [0xFF] = .error (.reservedOpcode 0xFF) := by decide

/-- A report whose payload is not all there has not been presented (R86). -/
theorem test_decode_incomplete :
    decode [] = .error .incomplete ∧ decode [0x01] = .error .incomplete ∧
      decode [0x02, 0x03, 0x01, 0x0A] = .error .incomplete := by decide

/-- R94's encodings of the six commands. -/
theorem test_encode :
    encode (.kbdReport [0x02, 0, 0x04, 0, 0, 0, 0, 0]) = [0x01, 0x08, 0x02, 0, 0x04, 0, 0, 0, 0, 0] ∧
      encode (.msReport [0x01, 0x0A, 0x05]) = [0x02, 0x03, 0x01, 0x0A, 0x05] ∧
      encode .kbdPoll = [0x10] ∧ encode .kbdRead = [0x11] ∧ encode .msPoll = [0x20] ∧
      encode .msRead = [0x21] := by decide

/-- The table's words: the opcode alone in bits 7..0, every later bit 0. -/
theorem test_decodeTableWord :
    decodeTableWord 8 0x01 = some (.kbdReport []) ∧ decodeTableWord 8 0x02 = some (.msReport []) ∧
      decodeTableWord 8 0x10 = some .kbdPoll ∧ decodeTableWord 8 0x11 = some .kbdRead ∧
      decodeTableWord 8 0x20 = some .msPoll ∧ decodeTableWord 8 0x21 = some .msRead ∧
      decodeTableWord 8 0x03 = none ∧
      decodeTableWord 40 0x050A010302 = some (.msReport [0x01, 0x0A, 0x05]) := by decide +kernel

/-- The step runs exactly the word's command as the first one after reset. -/
theorem test_withFetchWord :
    after (step (State.reset.withFetchWord 8 0x21)) State.out = some [.response [0, 0, 0, 0, 0]] ∧
      after (step (State.reset.withFetchWord 40 0x050A010302)) State.mx = some 330 ∧
      after (step (State.reset.withFetchWord 8 0x01)) id = some State.reset := by decide +kernel

/-! ### The assembler (R94, R95) -/

theorem test_assemble_kbdKeys :
    assembleLine "kbd_keys 0x02, 0x0B ; H".toList =
      .ok (some (.producer, [0x01, 0x08, 0x02, 0, 0x0B, 0, 0, 0, 0, 0])) := by decide +kernel

/-- Program 3, command 3: negative decimals are stored as two's complement. -/
theorem test_assemble_msReport :
    assembleLine "ms_report 0x01, -20, 0, -3, 0, 2".toList =
      .ok (some (.producer, [0x02, 0x06, 0x01, 0xEC, 0x00, 0xFD, 0x00, 0x02])) := by decide +kernel

/-- RF-2's line: a port prefix names the port. -/
theorem test_assemble_prefix :
    assembleLine "P: kbd_poll".toList = .ok (some (.producer, [0x10])) := by decide +kernel

/-! ### One step of each command -/

/-- R110's example: left shift and usage 0x04 append 'A'. -/
theorem test_kbdReport_shift_a :
    after (exec (.kbdReport [0x02, 0, 0x04, 0, 0, 0, 0, 0]) D) (fun t => (t.obuf, t.kbUpdated)) =
      some ([0x01, 0x41, 0, 0, 0, 0, 0, 0], true) := by decide +kernel

/-- OB-5: twelve appends in one report, and what is left of them. -/
theorem test_kbdReport_twelve_appends :
    after (exec (.kbdReport [0xFF, 0, 0x04, 0x05, 0x06, 0x07, 0x08, 0x09]) (dFlags 0x75FF)) State.obuf =
      some [0x0C, 0x46, 0x45, 0x44, 0x43, 0x42, 0x41, 0x9B] := by decide +kernel

/-- MS-7: both deltas, the scroll phase and the layout. -/
theorem test_msReport_six_bytes :
    after (exec (.msReport [0x03, 0xFB, 0xAA, 0x02, 0x55, 0xFF]) D) (fun t => (t.phase, t.snap)) =
      some (15, ⟨0xF3, 0x3B, 0x01, 0xEE, 0x00⟩) := by decide +kernel

/-- MS-2: the negation of -128 is +128. -/
theorem test_msReport_dy_minimum :
    after (exec (.msReport [0, 0, 0x80]) D) (fun t => (t.my, t.snap)) =
      some (368, ⟨0x00, 0x40, 0x01, 0x70, 0x01⟩) := by decide +kernel

/-- CD-1: the poll answers 01 and clears. -/
theorem test_kbdPoll :
    after (exec .kbdPoll aDown) (fun t => (t.out, t.kbUpdated)) =
      some ([.response [0x01]], false) := by decide +kernel

/-- CD-1: the read returns OBUF and leaves KB_UPDATED. -/
theorem test_kbdRead :
    after (exec .kbdRead aDown) (fun t => (t.out, t.kbUpdated)) =
      some ([.response [0x01, 0x61, 0, 0, 0, 0, 0, 0]], true) := by decide +kernel

/-- CD-5: the poll after the move answers 01 and copies. -/
theorem test_msPoll :
    after (exec .msPoll moved) (fun t => (t.out, t.copy)) =
      some ([.response [0x01]], ⟨0x01, 0x4A, 0x01, 0xEB, 0x00⟩) := by decide +kernel

/-- R220's example: the read does not update COPY. -/
theorem test_msRead :
    after (exec .msRead moved) (fun t => (t.out, t.copy)) =
      some ([.response [0x01, 0x4A, 0x01, 0xEB, 0x00]], ⟨0, 0, 0, 0, 0⟩) := by decide +kernel

/-- R300: a pulse is quiet while it lasts and ends in the release that samples and resets, whatever the
state before it. -/
theorem test_reset_pulse :
    after (stepAll 2 { moved with resetIn := [.pulse 1 (dFlags 0).cfg] }) id = some (dFlags 0) ∧
      after (stepAll 1 { moved with resetIn := [.pulse 1 (dFlags 0).cfg] }) State.mx = some 330 := by
  decide +kernel

/-- MS-9: the centre is rounded down. -/
theorem test_reset_centre_is_floored :
    (State.resetWith { Config.default with pW := 641, pH := 481 }).mx = 320 ∧
      (State.resetWith { Config.default with pW := 641, pH := 481 }).my = 240 := by decide

/-- U10: the domains of P_N and P_XCODE, at both ends. -/
theorem test_config_domain :
    { Config.default with pN := 2 }.wf = true ∧ { Config.default with pN := 256 }.wf = true ∧
      { Config.default with pN := 1 }.wf = false ∧ { Config.default with pN := 257 }.wf = false ∧
      { Config.default with pXcode := Vector.replicate 29 0x7F }.wf = false ∧
      { Config.default with pXcode := Vector.replicate 29 0x9C }.wf = true := by decide

/-! ### States the witnesses use -/

/-- The producer port holds a keyboard report (and the consumer port nothing). -/
def kbdPending : State := { D with producerIn := [0x01, 0x08, 0x02, 0, 0x04, 0, 0, 0, 0, 0, 0x02] }

/-- The consumer port holds a poll (and the producer port only the start of a report). -/
def pollPending : State := { D with producerIn := [0x02, 0x03, 0x01], consumerIn := [0x10, 0x11] }

/-- Both ports hold a command of their own. -/
def bothPending : State := { D with producerIn := [0x02, 0x00], consumerIn := [0x21] }

/-- A state a run reaches: 'a' is down, caps-lock was toggled, the mouse has moved. -/
def busy : State :=
  { moved with
    keymap := keySet (keySet 0 0x04) 0x39, obuf := [0x01, 0x61, 0, 0, 0, 0, 0, 0], kbUpdated := true
    capsLock := true, ledLast := 0x02, out := [.led 0x02], producerIn := [0x02, 0x03, 0, 0x7F, 0x80] }

/-- The invariant holds in a state that is not the reset state. -/
theorem busy_meets_the_invariant : Invariant busy where
  cfg_wf := by decide
  obuf_length := by decide
  mx_le := by decide
  my_le := by decide
  led_last := by decide
  latch_disabled := by intro j _; cases j <;> decide
  keymap_of_report := ⟨[0x04, 0x39], by decide, by decide +kernel⟩
  literal_keymap := by intro h; exact absurd h (by decide)
  snap_current := .inl (by decide)

/-! ### Witnesses: for each obligation with hypotheses, inputs that meet them all -/

theorem witness_DecodeOfEncodeGivesTheCommandBack :
    (Instr.kbdReport []).wf = true ∧ (Instr.kbdReport (List.replicate 255 0xFF)).wf = true ∧
      (Instr.msReport (List.replicate 255 0xFF)).wf = true ∧ Instr.msRead.wf = true := by decide +kernel

theorem witness_DecodedBytesAreTheEncoding :
    decode [0x02, 0x01, 0xAB, 0x10] = .ok (.msReport [0xAB], [0x10]) := by decide

/-- Both sides of the equivalence are met: 0x22 is outside the map, 0x21 is in it. -/
theorem witness_DecoderRefusesExactlyTheReservedOpcodes :
    decode [0x22] = .error (.reservedOpcode 0x22) ∧
      (0x22 : Byte) ∉ ([0x01, 0x02, 0x10, 0x11, 0x20, 0x21] : List Byte) ∧
      decode [0x21] ≠ .error (.reservedOpcode 0x21) := by decide

theorem witness_StepRunsThePendingCommand :
    (decode (kbdPending.portIn .producer) = .ok (.kbdReport [0x02, 0, 0x04, 0, 0, 0, 0, 0], [0x02]) ∧
      (Instr.kbdReport [0x02, 0, 0x04, 0, 0, 0, 0, 0]).port = .producer ∧
      portReady (kbdPending.portIn (otherPort .producer)) = false ∧ kbdPending.resetIn = []) ∧
    (decode (pollPending.portIn .consumer) = .ok (.kbdPoll, [0x11]) ∧ Instr.kbdPoll.port = .consumer ∧
      portReady (pollPending.portIn (otherPort .consumer)) = false ∧
      { pollPending with resetIn := [.inactive] }.resetIn = .inactive :: []) := by decide +kernel

/-- The hypotheses outside the arbiter's clauses are met, and the arbiter names one of the two ports. -/
theorem witness_StepServesThePortTheArbiterNames :
    ({ bothPending with resetIn := [.inactive] }.resetIn = .inactive :: [] ∧ bothPending.resetIn = [] ∧ decode bothPending.producerIn = .ok (.msReport [], []) ∧
      (Instr.msReport []).port = .producer ∧ decode bothPending.consumerIn = .ok (.msRead, []) ∧
      Instr.msRead.port = .consumer) ∧
    (arbiter bothPending.arbCount = .producer ∨ arbiter bothPending.arbCount = .consumer) :=
  ⟨by decide +kernel, eq_or_eq_otherPort _ .producer⟩

/-- Both ports hold a command of their own, so each waits for the other's. -/
theorem witness_PendingCommandExecutesAfterFinitelyManyOthers :
    (∀ r ∈ bothPending.resetIn, r = .inactive) ∧
      (decode (bothPending.portIn .producer) = .ok (.msReport [], []) ∧
        (Instr.msReport []).port = .producer) ∧
      (decode (bothPending.portIn .consumer) = .ok (.msRead, []) ∧ Instr.msRead.port = .consumer) := by
  decide +kernel

/-- Each refusal where the other port has nothing to serve; and where both have, one of the two ports is
the one the arbiter names, and either holds what is refused. -/
theorem witness_StepRefusesReservedOpcodeAndWrongPort :
    (arbiter D.arbCount = .producer ∨ arbiter D.arbCount = .consumer) ∧
    (decode ({ D with producerIn := [0x10], consumerIn := [0x03] }.portIn .producer) = .ok (.kbdPoll, []) ∧
      decode ({ D with producerIn := [0x10], consumerIn := [0x03] }.portIn .consumer) =
        .error (.reservedOpcode 0x03)) ∧
    { D with consumerIn := [0x03], resetIn := [.inactive] }.resetIn = .inactive :: [] ∧
    (decode ({ D with consumerIn := [0x03] }.portIn .consumer) = .error (.reservedOpcode 0x03) ∧
      portReady ({ D with consumerIn := [0x03] }.portIn (otherPort .consumer)) = false) ∧
    (decode ({ D with producerIn := [0x10] }.portIn .producer) = .ok (.kbdPoll, []) ∧
      Instr.kbdPoll.port ≠ .producer ∧
      portReady ({ D with producerIn := [0x10] }.portIn (otherPort .producer)) = false) :=
  ⟨eq_or_eq_otherPort _ .producer, by decide +kernel, by decide +kernel, by decide +kernel,
    by decide +kernel⟩

theorem witness_StepWithNoCommandToExecuteIsQuiet :
    { kbdPending with resetIn := [.pulse 1 Config.default] }.resetIn = .pulse (0 + 1) Config.default :: [] ∧
      (portReady D.producerIn = false ∧ portReady D.consumerIn = false ∧ D.resetIn = []) ∧
      (portReady ([0x01, 0x08] : List Byte) = false ∧
        { D with producerIn := [0x01, 0x08], resetIn := [.inactive, .inactive] }.resetIn =
          .inactive :: [.inactive]) := by decide +kernel

theorem witness_ResetReleaseGivesTheResetValues :
    { busy with resetIn := [.pulse 0 Config.default] }.resetIn = .pulse 0 Config.default :: [] ∧
      Config.default.wf = true ∧ { Config.default with pN := 0 }.wf = false ∧
      { Config.default with pN := 256, pW := 65535, pH := 0 }.wf = true := by decide +kernel

/-- A release of reset with another configuration, and a quiet step, each give a next state. -/
theorem witness_OnlyReleaseOfResetChangesTheConfiguration :
    step { busy with resetIn := [.pulse 0 { Config.default with pFF := 0 }] } =
        .next { dFlags 0 with producerIn := busy.producerIn, out := busy.out } ∧
      step D = .next D := ⟨next_of_after (by decide +kernel), next_of_after (by decide +kernel)⟩

/-- A command taken from the consumer port, the producer's incomplete bytes left. -/
theorem witness_StepTakesOneWholeCommandFromItsPort :
    step pollPending = .next { D with
      producerIn := [0x02, 0x03, 0x01], consumerIn := [0x11], out := [.response [0x00]] } :=
  next_of_after (by decide +kernel)

/-- A step with no event, and one with one. -/
theorem witness_StepOutputsAtMostOneEvent :
    step D = .next D ∧
      step { D with consumerIn := [0x20] } = .next { D with out := [.response [0x00]] } :=
  ⟨next_of_after (by decide +kernel), next_of_after (by decide +kernel)⟩

theorem witness_ResetStateMeetsTheInvariant :
    Config.default.wf = true ∧ { Config.default with pN := 2, pW := 0, pH := 65535 }.wf = true := by decide

/-- A state other than reset that meets the invariant, and whose step executes a mouse report. -/
theorem witness_EveryStepKeepsTheInvariant :
    Invariant busy ∧ ∃ t, step busy = .next t := ⟨busy_meets_the_invariant, next_of_isSome (by decide +kernel)⟩

theorem witness_ReportOfWrongLengthIsRejected :
    ([] : List Byte).length ≠ 8 ∧ (List.replicate 7 (1 : Byte)).length ≠ 8 ∧
      (List.replicate 9 (1 : Byte)).length ≠ 8 ∧
      ((List.replicate 4 (1 : Byte)).length ≠ 3 ∧ (List.replicate 4 (1 : Byte)).length ≠ 6) ∧
      ((List.replicate 8 (1 : Byte)).length ≠ 3 ∧ (List.replicate 8 (1 : Byte)).length ≠ 6) := by decide

theorem witness_KeyboardReportCompletesAndItsFrame :
    ([0xFF, 0xFF, 0x04, 0x05, 0x06, 0x07, 0x08, 0x09] : List Byte).length = 8 := by decide

theorem witness_ModifierLatchesFollowTheModifierByte :
    ([0x01, 0x01, 0x01, 0x01, 0x01, 0x01] : List Byte).length = 6 := by decide

/-- RO-2 under ALL_SLOTS, a 0x01 after a 0x00 under ALL_SLOTS, and a 0x01 before it under UNTIL_ZERO. -/
theorem witness_RolloverReportEmitsOnlyModifierCodes :
    (([0x04, 0x05, 0x01, 0, 0, 0] : List Byte).length = 6 ∧
      isRollover D.cfg [0x04, 0x05, 0x01, 0, 0, 0] = true) ∧
      isRollover D.cfg [0, 0, 0, 0, 0, 0x01] = true ∧
      isRollover dUntilZero.cfg [0x04, 0x01, 0, 0, 0, 0] = true ∧
      isRollover dUntilZero.cfg [0, 0x01, 0, 0, 0, 0] = false := by decide +kernel

/-- Reports that are no rollover reports, under either commit. -/
theorem witness_CommittedKeymapIsTheObservedSet :
    ([0x04, 0xFF, 0x04, 0, 0x05, 0] : List Byte).length = 6 ∧
      isRollover D.cfg [0x04, 0xFF, 0x04, 0, 0x05, 0] = false ∧
      isRollover dLiteral.cfg [0x04, 0xFF, 0x04, 0, 0x05, 0] = false := by decide +kernel

theorem witness_ReportEmitsModifierCodesThenRisingKeysInSlotOrder :
    ([0x04, 0x2B, 0x62, 0, 0x39, 0] : List Byte).length = 6 ∧
      isRollover D.cfg [0x04, 0x2B, 0x62, 0, 0x39, 0] = false ∧
      ∀ c ∈ processed [0x04, 0x2B, 0x62, 0, 0x39, 0], isLockKey c = false := by decide +kernel

/-- LK-2's slots: a lock key before a letter. -/
theorem witness_RisingKeysAreRoutedOneAfterAnother :
    ([0x39, 0x04, 0, 0, 0, 0] : List Byte).length = 6 ∧
      isRollover D.cfg [0x39, 0x04, 0, 0, 0, 0] = false := by decide +kernel

/-- SC-3 and SC-2: other codes after the first 0x00, and a 0x00 in slot 0. -/
theorem witness_SlotsAfterTheFirstZeroAreNotProcessed :
    (([0x04, 0, 0x05, 0, 0, 0] : List Byte).length = 6 ∧
      processed [0x04, 0, 0x05, 0, 0, 0] = processed [0x04, 0, 0, 0, 0, 0xFF] ∧
      isRollover D.cfg [0x04, 0, 0x05, 0, 0, 0] = isRollover D.cfg [0x04, 0, 0, 0, 0, 0xFF]) ∧
      (([0x04, 0x05, 0, 0, 0] : List Byte).length = 5 ∧
        isRollover D.cfg (0 :: [0x04, 0x05, 0, 0, 0]) = false) ∧
      isRollover dUntilZero.cfg (0 :: [0x01, 0x05, 0, 0, 0]) = false ∧
      (([0, 0, 0, 0, 0, 0x01] : List Byte).length = 6 ∧ D.cfg.pPhantomScope = .allSlots ∧
        (0x01 : Byte) ∈ ([0, 0, 0, 0, 0, 0x01] : List Byte)) := by decide +kernel

theorem witness_HeldKeysAndReleasesAreSilent :
    isRollover busy.cfg [0x39, 0x04, 0, 0, 0, 0] = false ∧
      (∀ c ∈ processed [0x39, 0x04, 0, 0, 0, 0], keyIn busy.keymap c = true) ∧
      risingModifiers 0xFF busy = [] ∧ Invariant busy :=
  ⟨by decide +kernel, by decide +kernel, by decide +kernel, busy_meets_the_invariant⟩

theorem witness_SameReportPresentedAgainChangesNothing :
    D.cfg.pKbCommit = .scanSet ∧
      exec (.kbdReport [0, 0, 0x04, 0, 0, 0, 0, 0]) D = .next aDown :=
  ⟨by decide, next_of_after (by decide +kernel)⟩

theorem witness_LedByteIsPresentedExactlyOnChange :
    ([0, 0, 0x53, 0x39, 0, 0, 0, 0] : List Byte).length = 8 := by decide

/-- LK-1: the one LED byte is 03. -/
theorem witness_LedByteOnlyWhenALockBitChanges :
    Invariant busy ∧ ∃ t, exec (.kbdReport [0, 0, 0x53, 0, 0, 0, 0, 0]) busy = .next t ∧
      t.out = busy.out ++ [.led 0x03] :=
  ⟨busy_meets_the_invariant, _, rfl, by decide +kernel⟩

/-- Each lock bit changes for some report: num and caps under D, scroll with its flag set. -/
theorem witness_LockBitsChangeOnlyByTheirEnabledKey :
    (∃ t, exec (.kbdReport [0, 0, 0x53, 0x39, 0, 0, 0, 0]) D = .next t ∧ t.numLock ≠ D.numLock ∧
      t.capsLock ≠ D.capsLock) ∧
    ∃ t, exec (.kbdReport [0, 0, 0x47, 0, 0, 0, 0, 0]) (dFlags 0x07FF) = .next t ∧
      t.scrollLock ≠ (dFlags 0x07FF).scrollLock :=
  ⟨⟨_, rfl, by decide +kernel⟩, ⟨_, rfl, by decide +kernel⟩⟩

/-! For the routing statements the hypothesis is that the key is up; in D every key is, so the first
and the last key of each range are met there. -/

theorem witness_LetterKeyEmitsTheShiftXorCapsColumn :
    keyIn D.keymap (BitVec.ofNat 8 (0x04 + (0 : Fin 26).val)) = false ∧
      keyIn busy.keymap (BitVec.ofNat 8 (0x04 + (25 : Fin 26).val)) = false := by decide +kernel

/-- The first row, the last row, Tab without shift, and a row other than Tab with shift. -/
theorem witness_DigitOrPunctuationKeyEmitsTheShiftColumn :
    (keyIn D.keymap (BitVec.ofNat 8 (0x1E + (0 : Fin 27).val)) = false ∧
      ((0 : Fin 27).val = 0x0D → ((0x02 : Byte).getLsbD 1 || (0x02 : Byte).getLsbD 5) = false)) ∧
    (keyIn D.keymap (BitVec.ofNat 8 (0x1E + (13 : Fin 27).val)) = false ∧
      ((13 : Fin 27).val = 0x0D → ((0xDD : Byte).getLsbD 1 || (0xDD : Byte).getLsbD 5) = false)) ∧
    keyIn D.keymap (BitVec.ofNat 8 (0x1E + (26 : Fin 27).val)) = false := by decide +kernel

theorem witness_ShiftedTabEmitsTheShiftTabCode :
    keyIn D.keymap 0x2B = false ∧ ((0x02 : Byte).getLsbD 1 || (0x02 : Byte).getLsbD 5) = true ∧
      ((0x20 : Byte).getLsbD 1 || (0x20 : Byte).getLsbD 5) = true := by decide +kernel

/-- The first and the last key of the list, both up in D. -/
theorem witness_NavigationKeyEmitsItsCodeIfEnabled :
    let keys : List (Byte × XKey × Feature) :=
      [(0x4F, .right, .arrows), (0x50, .left, .arrows), (0x51, .down, .arrows), (0x52, .up, .arrows),
        (0x49, .insert, .insert), (0x4A, .home, .home), (0x4D, .endKey, .endKey),
        (0x4B, .pageUp, .pageUp), (0x4E, .pageDown, .pageDown), (0x46, .printScreen, .printScreen)]
    ((0x4F, .right, .arrows) ∈ keys ∧ keyIn D.keymap 0x4F = false) ∧
      ((0x46, .printScreen, .printScreen) ∈ keys ∧ keyIn D.keymap 0x46 = false) := by decide +kernel

theorem witness_DeleteKeyEmitsRegardlessOfFlags :
    keyIn (dFlags 0).keymap 0x4C = false := by decide +kernel

/-- With FF_KEYPAD off, with num-lock on, and with num-lock off for enter, equal and 5. -/
theorem witness_KeypadKeyEmitsItsCodeWithNumLockOn :
    (keyIn (dFlags 0x01FF).keymap 0x54 = false ∧ (dFlags 0x01FF).cfg.enabled .keypad = false) ∧
      (keyIn D.keymap 0x63 = false ∧ D.cfg.enabled .keypad = true ∧
        { D with numLock := true }.numLock = true) ∧
      (keyIn D.keymap 0x67 = false ∧ D.numLock = false ∧ D.cfg.enabled .keypad = true) := by
  decide +kernel

theorem witness_KeypadKeyEmitsItsNavigationCodeWithNumLockOff :
    let keys : List (Byte × XKey × Feature) :=
      [(0x62, .insert, .insert), (0x59, .endKey, .endKey), (0x5A, .down, .arrows),
        (0x5B, .pageDown, .pageDown), (0x5C, .left, .arrows), (0x5E, .right, .arrows),
        (0x5F, .home, .home), (0x60, .up, .arrows), (0x61, .pageUp, .pageUp)]
    D.numLock = false ∧ D.cfg.enabled .keypad = true ∧
      ((0x62, .insert, .insert) ∈ keys ∧ keyIn D.keymap 0x62 = false) ∧
      ((0x61, .pageUp, .pageUp) ∈ keys ∧ keyIn D.keymap 0x61 = false) ∧ keyIn D.keymap 0x63 = false ∧
      (0x54 : Byte) = BitVec.ofNat 8 (0x54 + (0 : Fin 4).val) ∧ keyIn D.keymap 0x54 = false ∧
      (0x57 : Byte) = BitVec.ofNat 8 (0x54 + (3 : Fin 4).val) ∧ keyIn D.keymap 0x57 = false := by
  decide +kernel

theorem witness_FunctionKeyEmitsItsTableCodeIfEnabled :
    keyIn D.keymap (BitVec.ofNat 8 (0x3A + (0 : Fin 12).val)) = false ∧
      keyIn (dFlags 0x0DFF).keymap (BitVec.ofNat 8 (0x3A + (11 : Fin 12).val)) = false := by
  decide +kernel

theorem witness_UnmappedKeyEmitsNothing :
    0x68 ≤ (0x68 : Byte).toNat ∧ 0x68 ≤ (0xFF : Byte).toNat ∧ keyIn D.keymap 0x68 = false ∧
      keyIn D.keymap 0xFF = false ∧ keyIn D.keymap 0x02 = false ∧ D.cfg.pKbCommit = .scanSet ∧
      ∃ t, exec (oneKey 0 0 0xFF) D = .next t :=
  ⟨by decide, by decide, by decide +kernel, by decide +kernel, by decide +kernel, by decide, _, rfl⟩

theorem witness_LockKeyTogglesItsBitIfEnabled :
    keyIn D.keymap 0x53 = false ∧ keyIn D.keymap 0x39 = false ∧ keyIn D.keymap 0x47 = false := by
  decide +kernel

theorem witness_LaterSlotSeesTheLockAnEarlierOneToggled :
    keyIn D.keymap 0x39 = false ∧ keyIn D.keymap (BitVec.ofNat 8 (0x04 + (25 : Fin 26).val)) = false ∧
      D.cfg.enabled .capsLock = true := by decide +kernel

/-- Motion to the right, to the left by the most, and none, in either form. -/
theorem witness_HorizontalMotionIsClampedInItsDirection :
    (msFields [0, 0x7F, 0] = some ⟨0, 0x7F, 0, none⟩ ∧ 0 < (0x7F : Byte).toInt) ∧
      (msFields [0, 0x80, 0, 0, 0, 0] = some ⟨0, 0x80, 0, some 0⟩ ∧ (0x80 : Byte).toInt ≤ 0) ∧
      (0x00 : Byte).toInt ≤ 0 := by decide

/-- A state away from the centre, and a report that moves beyond both bounds. -/
theorem witness_OneSidedClampIsTheTwoSidedClamp :
    Invariant busy ∧ msFields [0, 0x80, 0x80] = some ⟨0, 0x80, 0x80, none⟩ ∧
      ∃ t, exec (.msReport [0, 0x80, 0x80]) busy = .next t :=
  ⟨busy_meets_the_invariant, by decide, _, rfl⟩

theorem witness_PublishedSnapshotFollowsTheLayout :
    ([0xF5, 0, 0] : List Byte).length = 3 ∧ ([0xF5, 0, 0, 0, 0, 0xFF] : List Byte).length = 6 := by decide

/-- CD-8's bytes: two button bytes with the same low nibble. -/
theorem witness_HighButtonBitsAreNotObservable :
    (0x10 : Byte) &&& 0x0F = 0x00 &&& 0x0F ∧ (∃ t, exec (.msReport (0x10 :: [0, 0])) D = .next t) ∧
      (∃ t, exec (.msReport (0x00 :: [0, 0])) D = .next t) ∧
      ∃ u, exec (.msReport (0xFF :: [1, 0, 1, 0, 1])) D = .next u ∧
        ([1, 0, 1, 0, 1] : List Byte).length = 5 :=
  ⟨by decide, ⟨_, rfl⟩, ⟨_, rfl⟩, _, rfl, by decide⟩

/-- The buffer's bound holds in every state that meets the invariant. -/
theorem witness_KeyboardReadReturnsTheBuffer : Invariant busy := busy_meets_the_invariant

/-- The shortest buffer and the default one; in the default one an index from 2 on. -/
theorem witness_AppendCountsShiftsAndSetsUpdated :
    2 ≤ (State.resetWith { Config.default with pN := 2 }).obuf.length ∧ 2 ≤ aDown.obuf.length ∧
      7 < aDown.obuf.length := by decide +kernel

/-- CD-1's run: a poll, then a report that appends and a read. -/
theorem witness_KeyboardPollTellsWhetherAnythingWasAppended :
    Instr.kbdPoll ∉ [Instr.kbdReport [0, 0, 0x04, 0, 0, 0, 0, 0], .kbdRead] ∧
      ∃ s1 t, exec .kbdPoll D = .next s1 ∧
        execAll [.kbdReport [0, 0, 0x04, 0, 0, 0, 0, 0], .kbdRead] s1 = .next t :=
  ⟨by decide, _, _, rfl, rfl⟩

/-- CD-4's run: a poll, then two moves. -/
theorem witness_MousePollTellsWhetherTheSnapshotChanged :
    Instr.msPoll ∉ [Instr.msReport [0, 5, 0], .msReport [0, 0xFB, 0], .msRead] ∧
      ∃ s1 t, exec .msPoll D = .next s1 ∧
        execAll [.msReport [0, 5, 0], .msReport [0, 0xFB, 0], .msRead] s1 = .next t :=
  ⟨by decide, _, _, rfl, rfl⟩

/-- Commands for which the premise of each clause holds. -/
theorem witness_OnlyItsOwnersWriteEachElement :
    (∃ t, exec (.msReport [0, 1, 1]) D = .next t) ∧ (∀ report, Instr.msReport [0, 1, 1] ≠ .kbdReport report) ∧
      Instr.msReport [0, 1, 1] ≠ .kbdPoll ∧ (∃ t, exec .kbdPoll D = .next t) ∧
      (∀ report, Instr.kbdPoll ≠ .msReport report) ∧ Instr.kbdPoll ≠ .msPoll :=
  ⟨⟨_, rfl⟩, by simp, by decide, ⟨_, rfl⟩, by simp, by decide⟩

/-- A step that executes a mouse report, and one that releases reset. -/
theorem witness_OnlyMouseReportsAndResetMoveTheAccumulator :
    (∃ t, step busy = .next t) ∧ ∃ t, step { busy with resetIn := [.pulse 0 Config.default] } = .next t :=
  ⟨next_of_isSome (by decide +kernel), next_of_isSome (by decide +kernel)⟩

theorem witness_KeyboardAndMouseDoNotAffectEachOther :
    ∃ t, execAll [.kbdReport [0, 0, 0x04, 0, 0, 0, 0, 0], .msReport [0, 1, 1], .kbdPoll, .msPoll] D =
      .next t := ⟨_, rfl⟩

theorem witness_MouseReportCommutesWithKeyboardCommands :
    isMouseCommand (.kbdReport [0, 0, 0x39, 0, 0, 0, 0, 0]) = false ∧ isMouseCommand .kbdPoll = false ∧
      isMouseCommand .kbdRead = false := by decide

end Sys2Proof.Tests
end

/-! The layouts of the two outputs as claims: the bytes of the published snapshot
(spec/30_encoding.md R84) and the bits of the LED byte (spec/30_encoding.md R87,
spec/40_keyboard.md R140). -/

namespace Sys2Proof.Machine

open Sys2Proof

/-! ### The snapshot -/

/-- Settles O46: a report of 3 or 6 bytes has its fields, so it publishes the moved accumulator, and
each packed byte has the value of the layout. -/
theorem publishedSnapshotFollowsTheLayout : Obligations.PublishedSnapshotFollowsTheLayout := by
  intro report s hlen
  obtain ⟨r, hr⟩ := Option.isSome_iff_exists.mp ((msFields_isSome report).mpr hlen)
  exact ⟨_, exec_msReport_of_fields hr s, packButtons_toNat _ _, lo8_toNat _, hi8_toNat _,
    lo8_toNat _, hi8_toNat _⟩

/-! ### The LED byte -/

/-- `bool(b)` has `b` in bit 0 and no other bit set (R10). -/
theorem boolByte_getLsbD (b : Bool) (k : Nat) : (boolByte b).getLsbD k = (decide (k = 0) && b) := by
  cases b with
  | false => simp [boolByte]
  | true => simp [boolByte]

/-- Each lock bit stands at its own place of the LED byte, and nothing else is set (R140). -/
theorem ledByte_getLsbD (num caps scroll : Bool) (k : Nat) :
    (ledByte num caps scroll).getLsbD k =
      match k with
      | 0 => num
      | 1 => caps
      | 2 => scroll
      | _ => false := by
  simp only [ledByte, BitVec.getLsbD_or, BitVec.getLsbD_shiftLeft, boolByte_getLsbD]
  match k with
  | 0 | 1 | 2 | k + 3 => simp

/-- Settles O27: each clause reads one place of `ledByte`. -/
theorem ledByteHoldsTheLockBits : Obligations.LedByteHoldsTheLockBits := by
  intro s
  refine ⟨ledByte_getLsbD _ _ _ 0, ledByte_getLsbD _ _ _ 1, ledByte_getLsbD _ _ _ 2, fun k hk => ?_⟩
  obtain ⟨j, rfl⟩ := Nat.exists_eq_add_of_le' hk
  exact ledByte_getLsbD _ _ _ (j + 3)

end Sys2Proof.Machine

/-! The fields of a keyboard report that its effect depends on, as claims (spec/40_keyboard.md R112). -/

namespace Sys2Proof.Machine

open Sys2Proof

/-- The body reads the modifier byte and the slots only (R112). -/
theorem kbdBody_reserved (m r r' : Byte) (slots : List Byte) (s : State) :
    kbdBody ⟨m, r, slots⟩ s = kbdBody ⟨m, r', slots⟩ s := rfl

/-- A keyboard report of any other length than 8 changes nothing (R111). -/
theorem exec_kbdReport_of_length_ne {report : List Byte} (h : report.length ≠ 8) (s : State) :
    exec (.kbdReport report) s = .next s := by
  obtain ⟨t, ht⟩ := exec_next (.kbdReport report) s
  rcases exec_kbdReport_cases ht with ⟨-, rfl⟩ | ⟨r, hr, -⟩
  · exact ht
  · exact absurd ((kbdFields_isSome report).mp (by simp [hr])) h

/-- Settles O17: with six slots both reports are accepted and have the same body; with any other number
both are rejected. -/
theorem keyboardReportByteOneIsIgnored : Obligations.KeyboardReportByteOneIsIgnored := by
  intro m r r' slots s
  by_cases h : slots.length = 6
  · rw [exec_kbdReport_of_fields (kbdFields_cons m r h), exec_kbdReport_of_fields (kbdFields_cons m r' h),
      kbdBody_reserved m r r']
  · rw [exec_kbdReport_of_length_ne (by simpa using h), exec_kbdReport_of_length_ne (by simpa using h)]

end Sys2Proof.Machine

/-! A report with one newly pressed key, and the letters (spec/41_keyboard_lut.md R165). -/

namespace Sys2Proof.Machine

open Sys2Proof

/-! ### One newly pressed key -/

theorem processed_oneKey {c : Byte} (h0 : c ≠ U_EMPTY) : processed [c, 0, 0, 0, 0, 0] = [c] := by
  rw [processed_cons h0, processed_zero]

/-- A key code alone in slot 0 makes no rollover report, by either reading (R120). -/
theorem isRollover_oneKey {c : Byte} (h0 : c ≠ U_EMPTY) (h1 : c ≠ U_ROLLOVER) (cfg : Config) :
    isRollover cfg [c, 0, 0, 0, 0, 0] = false := by
  unfold isRollover
  cases cfg.pPhantomScope with
  | allSlots => simpa using h1.symm
  | untilZero =>
    simpa only [processed_oneKey h0, List.contains_cons, List.contains_nil, Bool.or_false,
      beq_eq_false_iff_ne] using h1.symm

/-- The one rising edge of a report whose only key is up (R125 to R127). -/
theorem risingKeys_oneKey {keymap : KeySet} {c : Byte} (h0 : c ≠ U_EMPTY) (hup : keyIn keymap c = false)
    (cfg : Config) : risingKeys cfg keymap [c, 0, 0, 0, 0, 0] = [c] := by
  rw [risingKeys_eq, processed_oneKey h0, risingAmong_cons_fresh hup]
  cases cfg.pKbCommit <;> rfl

/-- A newly pressed key is routed after the modifier pass; then come the commit and the LED update
(R110). -/
theorem exec_oneKey {c : Byte} {s : State} (h0 : c ≠ U_EMPTY) (h1 : c ≠ U_ROLLOVER)
    (hup : keyIn s.keymap c = false) (m r : Byte) :
    ∃ k : KeySet, exec (oneKey m r c) s =
      .next (ledUpdate { route c (shiftPressed m) (modifierPass m s) with keymap := k }) := by
  obtain ⟨k, -, hbody⟩ :=
    kbdBody_scan (r := ⟨m, r, [c, 0, 0, 0, 0, 0]⟩) (isRollover_oneKey h0 h1 s.cfg)
  rw [risingKeys_oneKey h0 hup] at hbody
  exact ⟨k, by rw [oneKey, exec_kbdReport_of_fields (kbdFields_cons m r rfl), hbody]; rfl⟩

/-- A newly pressed key that is no lock key appends its category's entry, read with the lock bits the
report found: the modifier pass writes none of them (R150). -/
theorem keyAppends_of_not_lock {c : Byte} {s : State} (h0 : c ≠ U_EMPTY) (h1 : c ≠ U_ROLLOVER)
    (hlock : isLockKey c = false) (hup : keyIn s.keymap c = false) (m r : Byte) :
    KeyAppends m r c s (keyCode s.cfg s.numLock s.capsLock (shiftPressed m) c).toList := by
  obtain ⟨k, hexec⟩ := exec_oneKey h0 h1 hup m r
  have hpass := modifierPass_frame m s
  have hnum : (modifierPass m s).numLock = s.numLock := by rw [hpass]
  have hcaps : (modifierPass m s).capsLock = s.capsLock := by rw [hpass]
  have hscroll : (modifierPass m s).scrollLock = s.scrollLock := by rw [hpass]
  rw [route_of_not_lock hlock, modifierPass_cfg, hnum, hcaps, ledUpdate_spec] at hexec
  have hemits := (modifierPass_emits m s).trans (appendEntry_emits _
    (keyCode s.cfg s.numLock s.capsLock (shiftPressed m) c))
  exact ⟨_, hexec, hemits.obuf, hemits.kbUpdated, (appendEntry_numLock _ _).trans hnum,
    (appendEntry_capsLock _ _).trans hcaps, (appendEntry_scrollLock _ _).trans hscroll⟩

/-! ### Letters -/

/-- The letters are the codes from U_A on, in the order of `P_LETTER`. -/
theorem letterRow_eq_some {c : Byte} {row : Fin 26} :
    letterRow c = some row ↔ c.toNat = 0x04 + row.val := by
  unfold letterRow
  split_ifs with h
  · rw [Option.some.injEq, Fin.ext_iff]; dsimp only; omega
  · simp only [false_iff]; omega

/-- A letter differs from every code below U_A or above U_Z. -/
theorem ne_of_letterRow {c d : Byte} {row : Fin 26} (h : letterRow c = some row)
    (hd : d.toNat < 0x04 ∨ 0x1D < d.toNat) : c ≠ d := by
  rintro rfl
  have := letterRow_eq_some.mp h
  omega

theorem navTable_lookup_of_letterRow {c : Byte} {row : Fin 26} (h : letterRow c = some row) :
    navTable.lookup c = none := by
  have hnav : ∀ p ∈ navTable, 0x1D < p.1.toNat := by decide
  rw [List.lookup_eq_none_iff]
  exact fun p hp => bne_iff_ne.mpr (ne_of_letterRow h (.inr (hnav p hp)))

theorem isLockKey_of_letterRow {c : Byte} {row : Fin 26} (h : letterRow c = some row) :
    isLockKey c = false := by
  have hne : ∀ d : Byte, 0x1D < d.toNat → (c == d) = false := fun d hd =>
    beq_eq_false_iff_ne.mpr (ne_of_letterRow h (.inr hd))
  rw [isLockKey, hne U_NUMLOCK (by decide), hne U_CAPSLOCK (by decide), hne U_SCROLLLOCK (by decide)]
  rfl

/-- A letter is in no category that stands before its own, so it appends its column of `P_LETTER` (R150,
R165). -/
theorem keyCode_of_letterRow {c : Byte} {row : Fin 26} (h : letterRow c = some row) (cfg : Config)
    (num caps shift : Bool) : keyCode cfg num caps shift c = some (letter cfg caps shift row) := by
  have hdel : c ≠ U_DELETE := ne_of_letterRow h (by decide)
  have htab : c ≠ U_TAB := ne_of_letterRow h (by decide)
  simp only [keyCode, navTable_lookup_of_letterRow h, if_neg hdel, htab, false_and, if_false, h]

/-- Settles O30: a letter is a key of its own category, so the report appends its code, and that is the
column of shift XOR caps-lock. -/
theorem letterKeyEmitsTheShiftXorCapsColumn : Obligations.LetterKeyEmitsTheShiftXorCapsColumn := by
  intro m r k s hup
  have hrow : letterRow (BitVec.ofNat 8 (0x04 + k.val)) = some k :=
    letterRow_eq_some.mpr (by rw [BitVec.toNat_ofNat]; omega)
  have happ := keyAppends_of_not_lock (ne_of_letterRow hrow (by decide))
    (ne_of_letterRow hrow (by decide)) (isLockKey_of_letterRow hrow) hup m r
  rwa [keyCode_of_letterRow hrow] at happ

end Sys2Proof.Machine

/-! The mouse accumulator as claims: the scroll phase (spec/42_mouse.md R208), and what changes the
accumulator at all (spec/42_mouse.md R213). -/

namespace Sys2Proof.Machine

open Sys2Proof

/-! ### The scroll phase -/

/-- The signed delta and the raw scroll byte differ by a multiple of 256, so they move the phase alike
(R208). -/
theorem scrollBy_sext8_toNat (phase : Phase) (sc : Byte) :
    (scrollBy phase (sext8 sc)).toNat = (phase.toNat + sc.toNat) % 16 := by
  have hphase := scrollBy_toNat phase (sext8 sc)
  simp only [sext8] at hphase ⊢
  split_ifs at hphase ⊢ <;> omega

/-- Any number of equal 6-byte reports in a row moves the phase by that many raw scroll bytes (R208). -/
theorem execAll_replicate_scroll_phase (b dx r1 dy r2 sc : Byte) (n : Nat) (s : State) :
    ∃ u, execAll (List.replicate n (.msReport [b, dx, r1, dy, r2, sc])) s = .next u ∧
      u.phase.toNat = (s.phase.toNat + n * sc.toNat) % 16 := by
  induction n generalizing s with
  | zero => exact ⟨s, rfl, by have := s.phase.isLt; omega⟩
  | succ n ih =>
    have hexec := exec_msReport_of_fields (report := [b, dx, r1, dy, r2, sc]) rfl s
    obtain ⟨u, hu, hphase⟩ := ih (moveMouse ⟨b, dx, dy, some sc⟩ s).publish
    refine ⟨u, by rw [List.replicate_succ, execAll_cons_of_next hexec, hu], ?_⟩
    rw [hphase, State.publish_phase, moveMouse_phase, scrollBy_sext8_toNat, Nat.mod_add_mod,
      Nat.add_assoc, Nat.succ_mul, Nat.add_comm sc.toNat]

/-- Settles O44: one report moves the phase by the signed delta, which is the raw byte modulo 16, and
sixteen of them by a multiple of 16. -/
theorem scrollPhaseWrapsModuloSixteen : Obligations.ScrollPhaseWrapsModuloSixteen := by
  intro b dx r1 dy r2 sc s
  refine ⟨_, exec_msReport_of_fields (r := ⟨b, dx, dy, some sc⟩) rfl s, ?_,
    scrollBy_sext8_toNat _ _, ?_⟩
  · rw [← sext8_eq]
    exact scrollBy_toNat _ _
  · obtain ⟨u, hu, hphase⟩ := execAll_replicate_scroll_phase b dx r1 dy r2 sc 16 s
    refine ⟨u, hu, BitVec.eq_of_toNat_eq ?_⟩
    rw [hphase, Nat.add_mul_mod_self_left, Nat.mod_eq_of_lt s.phase.isLt]

/-! ### What changes the accumulator -/

/-- A command that is no MS_REPORT leaves the mouse's elements but COPY, which MS_POLL writes (R25,
R213). -/
theorem exec_mouse_of_not_msReport {i : Instr} {s t : State} (hi : ∀ report, i ≠ .msReport report)
    (h : exec i s = .next t) : { t.mouse with copy := s.copy } = s.mouse := by
  have of_keyboard (hk : isMouseCommand i = false) : { t.mouse with copy := s.copy } = s.mouse := by
    rw [exec_mouse_of_keyboard hk h]; rfl
  cases i with
  | kbdReport report => exact of_keyboard rfl
  | msReport report => exact absurd rfl (hi report)
  | kbdPoll => exact of_keyboard rfl
  | kbdRead => exact of_keyboard rfl
  | msPoll => cases h; rfl
  | msRead => cases h; rfl

/-- Taking a command's bytes leaves the mouse's elements. -/
theorem fetch_command_mouse {i : Instr} {s u : State} (h : fetch s = .command i u) :
    u.mouse = s.mouse := by
  obtain ⟨rest, r, n, -, rfl⟩ := fetch_command h
  cases i.port <;> rfl

/-- A step leaves the mouse's elements but COPY, or executes an MS_REPORT, or releases reset (R213). -/
theorem step_mouse_cases {s t : State} (h : step s = .next t) :
    (∃ c, { t.mouse with copy := c } = s.mouse) ∨
      (∃ report u, fetch s = .command (.msReport report) u ∧ exec (.msReport report) u = .next t) ∨
      ∃ c r, s.resetIn = .pulse 0 c :: r ∧ t = { s with resetIn := r }.release c := by
  rcases step_cases h with ⟨i, u, hf, he⟩ | hq
  · by_cases hi : ∃ report, i = .msReport report
    · obtain ⟨report, rfl⟩ := hi
      exact .inr (.inl ⟨report, u, hf, he⟩)
    · left
      exact ⟨u.copy, (exec_mouse_of_not_msReport (not_exists.mp hi) he).trans (fetch_command_mouse hf)⟩
  · rcases fetch_quiet hq with ⟨r, n, rfl⟩ | ⟨c, r, hr, -, ht⟩
    · exact .inl ⟨s.copy, rfl⟩
    · exact .inr (.inr ⟨c, r, hr, ht⟩)

/-- Settles O57: MX, MY, PHASE and BTN are the mouse's elements beside SNAP and COPY, and a release of
reset gives them their reset values. -/
theorem onlyMouseReportsAndResetMoveTheAccumulator :
    Obligations.OnlyMouseReportsAndResetMoveTheAccumulator := by
  intro s t h
  rcases step_mouse_cases h with ⟨c, hm⟩ | hreport | ⟨c, r, hr, rfl⟩
  · exact .inl ⟨congrArg MouseView.mx hm, congrArg MouseView.my hm, congrArg MouseView.phase hm,
      congrArg MouseView.btn hm⟩
  · exact .inr (.inl hreport)
  · exact .inr (.inr ⟨c, r, hr, rfl, rfl, rfl, rfl⟩)

end Sys2Proof.Machine

/-! The framing as claims (spec/30_encoding.md R86, R88, R89, R92). -/

namespace Sys2Proof

/-! ### The opcode map -/

/-- The six opcodes of the map (R88). -/
def opcodeMap : List Byte := [opKbdReport, opMsReport, opKbdPoll, opKbdRead, opMsPoll, opMsRead]

/-- A byte outside the map is refused by name, whatever follows it (R92). -/
theorem decode_of_not_mem_opcodeMap {op : Byte} (h : op ∉ opcodeMap) (bs : List Byte) :
    decode (op :: bs) = .error (.reservedOpcode op) := by
  simp only [opcodeMap, List.mem_cons, List.not_mem_nil, or_false, not_or] at h
  obtain ⟨h1, h2, h3, h4, h5, h6⟩ := h
  rw [decode, if_neg h1, if_neg h2, if_neg h3, if_neg h4, if_neg h5, if_neg h6]

/-- A byte of the map is never refused as reserved (R92). -/
theorem decode_ne_reserved_of_mem_opcodeMap {op : Byte} (h : op ∈ opcodeMap) (bs : List Byte)
    (op' : Byte) : decode (op :: bs) ≠ .error (.reservedOpcode op') := by
  simp only [opcodeMap, List.mem_cons, List.not_mem_nil, or_false] at h
  rcases h with rfl | rfl | rfl | rfl | rfl | rfl
  · exact decodeReport_ne_reserved _ bs op'
  · exact decodeReport_ne_reserved _ bs op'
  all_goals nofun

/-! ### The claims -/

/-- Settles O1: a report's length byte and payload decode to it by the length rule, and the other four
commands are their opcode alone. -/
theorem decodeOfEncodeGivesTheCommandBack : Obligations.DecodeOfEncodeGivesTheCommandBack := by
  intro i rest hwf
  cases i with
  | kbdReport report => exact decodeReport_encodePayload _ (of_decide_eq_true hwf) rest
  | msReport report => exact decodeReport_encodePayload _ (of_decide_eq_true hwf) rest
  | kbdPoll => rfl
  | kbdRead => rfl
  | msPoll => rfl
  | msRead => rfl

/-- Settles O2: the first byte is an opcode of the map, since the bytes decode, and by each of them the
bytes are that command's encoding; for a report this is the length rule read backwards. -/
theorem decodedBytesAreTheEncoding : Obligations.DecodedBytesAreTheEncoding := by
  intro bs rest i h
  cases bs with
  | nil => exact absurd h (by simp [decode])
  | cons op bs =>
    by_cases hop : op ∈ opcodeMap
    · simp only [opcodeMap, List.mem_cons, List.not_mem_nil, or_false] at hop
      rcases hop with rfl | rfl | rfl | rfl | rfl | rfl
      · obtain ⟨report, rfl, hlen, rfl⟩ := decodeReport_eq_ok h
        exact ⟨decide_eq_true hlen, rfl⟩
      · obtain ⟨report, rfl, hlen, rfl⟩ := decodeReport_eq_ok h
        exact ⟨decide_eq_true hlen, rfl⟩
      all_goals cases h; exact ⟨rfl, rfl⟩
    · rw [decode_of_not_mem_opcodeMap hop] at h
      cases h

/-- Settles O3: the listed bytes are the opcode map. -/
theorem decoderRefusesExactlyTheReservedOpcodes :
    Obligations.DecoderRefusesExactlyTheReservedOpcodes := fun op bs =>
  ⟨fun h hop => decode_ne_reserved_of_mem_opcodeMap hop bs op h, fun h => decode_of_not_mem_opcodeMap h bs⟩

/-- Settles O4: each word is the encoding of its command. -/
theorem wordsOfTheOpcodeMapDecode : Obligations.WordsOfTheOpcodeMapDecode :=
  have word := fun i h => decodeOfEncodeGivesTheCommandBack i [] h
  ⟨word (.kbdReport [0x02, 0, 0x04, 0, 0, 0, 0, 0]) rfl, word (.msReport [0x01, 0x0A, 0x05]) rfl,
    word .kbdPoll rfl, word .kbdRead rfl, word .msPoll rfl, word .msRead rfl⟩

end Sys2Proof

/-! The step as claims: what it finds, where reset is not asserted and where it is, and what it takes and
outputs (spec/20_memory.md R63, R67, spec/60_exceptions.md R270, R272, R287,
spec/70_reset_and_hazards.md R300). -/

namespace Sys2Proof.Machine

open Sys2Proof

/-! ### What the step finds -/

theorem step_of_command {s u : State} {i : Instr} (h : fetch s = .command i u) : step s = exec i u := by
  rw [step, h]

theorem step_of_quiet {s t : State} (h : fetch s = .quiet t) : step s = .next t := by
  rw [step, h]

theorem step_of_refused {s : State} {r : Refusal} (h : fetch s = .refused r) : step s = .refused r := by
  rw [step, h]

theorem fetch_of_resetIn_nil {s : State} (h : s.resetIn = []) : fetch s = arbitrate s := by
  rw [fetch, h]

theorem fetch_of_resetIn_inactive {s : State} {r : List ResetInput} (h : s.resetIn = .inactive :: r) :
    fetch s = arbitrate { s with resetIn := r } := by
  rw [fetch, h]

theorem fetch_of_resetIn_held {s : State} {n : Nat} {c : Config} {r : List ResetInput}
    (h : s.resetIn = .pulse (n + 1) c :: r) : fetch s = .quiet { s with resetIn := .pulse n c :: r } := by
  rw [fetch, h]

theorem fetch_of_resetIn_release {s : State} {c : Config} {r : List ResetInput}
    (h : s.resetIn = .pulse 0 c :: r) :
    fetch s = if c.wf then .quiet ({ s with resetIn := r }.release c) else .refused .configOutOfDomain := by
  rw [fetch, h]

@[simp] theorem State.portIn_of_resetIn (s : State) (r : List ResetInput) (p : Port) :
    { s with resetIn := r }.portIn p = s.portIn p := by cases p <;> rfl

@[simp] theorem State.portIn_of_arbCount (s : State) (n : Nat) (p : Port) :
    { s with arbCount := n }.portIn p = s.portIn p := by cases p <;> rfl

/-- Reset is not asserted in the next step (R300): its input has ended, or says so. -/
def State.resetInactive (s : State) : Prop := s.resetIn = [] ∨ ∃ r, s.resetIn = .inactive :: r

/-- Where reset is not asserted the ports are looked at, and the entry for this step is read. -/
theorem fetch_of_resetInactive {s : State} (h : s.resetInactive) :
    ∃ r, (∀ e ∈ r, e ∈ s.resetIn) ∧ fetch s = arbitrate { s with resetIn := r } := by
  rcases h with h | ⟨r, h⟩
  · exact ⟨s.resetIn, fun _ => id, fetch_of_resetIn_nil h⟩
  · exact ⟨r, fun e he => by rw [h]; exact List.mem_cons_of_mem _ he, fetch_of_resetIn_inactive h⟩

/-! ### The choice of a port, and what serving it finds -/

theorem choosePort_of_neither {s : State} (hp : portReady s.producerIn = false)
    (hc : portReady s.consumerIn = false) : choosePort s = none := by
  rw [choosePort, hp, hc]

theorem choosePort_of_one {s : State} {p : Port} (hp : portReady (s.portIn p) = true)
    (ho : portReady (s.portIn (otherPort p)) = false) : choosePort s = some (p, s) := by
  cases p <;> simp only [otherPort, State.portIn_producer, State.portIn_consumer] at hp ho <;>
    rw [choosePort, hp, ho]

theorem choosePort_of_both {s : State} {p : Port} (hp : portReady (s.portIn p) = true)
    (ho : portReady (s.portIn (otherPort p)) = true) :
    choosePort s = some (arbiter s.arbCount, { s with arbCount := s.arbCount + 1 }) := by
  cases p <;> simp only [otherPort, State.portIn_producer, State.portIn_consumer] at hp ho <;>
    rw [choosePort, hp, ho]

theorem serve_of_command {s : State} {p : Port} {i : Instr} {rest : List Byte}
    (h : decode (s.portIn p) = .ok (i, rest)) (hp : i.port = p) :
    serve p s = .command i (s.setPortIn p rest) := by
  rw [serve, h]
  exact if_pos hp

theorem serve_of_wrongPort {s : State} {p : Port} {i : Instr} {rest : List Byte}
    (h : decode (s.portIn p) = .ok (i, rest)) (hp : i.port ≠ p) : serve p s = .refused (.wrongPort i) := by
  rw [serve, h]
  exact if_neg hp

theorem serve_of_reserved {s : State} {p : Port} {op : Byte}
    (h : decode (s.portIn p) = .error (.reservedOpcode op)) :
    serve p s = .refused (.reservedOpcode op) := by
  rw [serve, h]

/-- Port `p` is the one a step serves: it has something to serve, and the other has not or the arbiter
names `p` (R287). -/
structure Served (s : State) (p : Port) : Prop where
  ready : portReady (s.portIn p) = true
  chosen : portReady (s.portIn (otherPort p)) = false ∨ arbiter s.arbCount = p

/-- The reset input does not matter to which port is served. -/
theorem Served.of_resetIn {s : State} {p : Port} (h : Served s p) (r : List ResetInput) :
    Served { s with resetIn := r } p :=
  ⟨by simpa using h.ready, by simpa using h.chosen⟩

/-- A port served is served in the same state but for the count of decisions. -/
theorem arbitrate_of_served {s : State} {p : Port} (h : Served s p) :
    ∃ n, arbitrate s = serve p { s with arbCount := n } := by
  cases ho : portReady (s.portIn (otherPort p)) with
  | false => exact ⟨s.arbCount, by rw [arbitrate, choosePort_of_one h.ready ho]⟩
  | true =>
    have hp : arbiter s.arbCount = p := h.chosen.resolve_left (by simp [ho])
    exact ⟨s.arbCount + 1, by rw [arbitrate, choosePort_of_both h.ready ho, hp]⟩

/-- What a step finds where reset is not asserted and port `p` is served: the first command of `p`, in the
same state but for the reset input and the count of decisions. -/
theorem fetch_of_served {s : State} {p : Port} (hr : s.resetInactive) (h : Served s p) :
    ∃ r n, (∀ e ∈ r, e ∈ s.resetIn) ∧ fetch s = serve p { s with resetIn := r, arbCount := n } := by
  obtain ⟨r, hsub, hf⟩ := fetch_of_resetInactive hr
  obtain ⟨n, hn⟩ := arbitrate_of_served (h.of_resetIn r)
  exact ⟨r, n, hsub, hf.trans hn⟩

/-- The only command presented is found, with exactly its bytes taken. -/
theorem arbitrate_of_only {s : State} {p : Port} {i : Instr} {rest : List Byte}
    (h : decode (s.portIn p) = .ok (i, rest)) (hp : i.port = p)
    (ho : portReady (s.portIn (otherPort p)) = false) :
    arbitrate s = .command i (s.setPortIn p rest) := by
  rw [arbitrate, choosePort_of_one (portReady_of_ok h) ho]
  exact serve_of_command h hp

/-- Between two ports with something to serve the command of the one the arbiter names is found (R287). -/
theorem arbitrate_of_named {s : State} {p : Port} {i : Instr} {rest : List Byte}
    (h : decode (s.portIn p) = .ok (i, rest)) (hp : i.port = p)
    (ho : portReady (s.portIn (otherPort p)) = true) (harb : arbiter s.arbCount = p) :
    arbitrate s = .command i ({ s with arbCount := s.arbCount + 1 }.setPortIn p rest) := by
  rw [arbitrate, choosePort_of_both (portReady_of_ok h) ho, harb]
  exact serve_of_command (by simpa using h) hp

/-! ### Claims about one step -/

/-- Settles O5: whether the reset input has ended or has a not-asserted entry, the arbitration finds the
one command presented. -/
theorem stepRunsThePendingCommand : Obligations.StepRunsThePendingCommand := by
  intro s p i rest hd hp ho
  exact ⟨fun hr => step_of_command ((fetch_of_resetIn_nil hr).trans (arbitrate_of_only hd hp ho)),
    fun r hr => step_of_command ((fetch_of_resetIn_inactive hr).trans
      (arbitrate_of_only (by simpa using hd) hp (by simpa using ho)))⟩

/-- Settles O6: both ports are ready, so the arbitration finds the command of the port it names, whatever
the reset input's entry. -/
theorem stepServesThePortTheArbiterNames : Obligations.StepServesThePortTheArbiterNames := by
  intro s i j restP restC hi hip hj hjp
  have hready := portReady_of_ok hi
  have hready' := portReady_of_ok hj
  exact ⟨fun hr =>
      ⟨fun ha => step_of_command ((fetch_of_resetIn_nil hr).trans
          (arbitrate_of_named (p := .producer) hi hip hready' ha)),
        fun ha => step_of_command ((fetch_of_resetIn_nil hr).trans
          (arbitrate_of_named (p := .consumer) hj hjp hready ha))⟩,
    fun r hr =>
      ⟨fun ha => step_of_command ((fetch_of_resetIn_inactive hr).trans
          (arbitrate_of_named (s := { s with resetIn := r }) (p := .producer) hi hip hready' ha)),
        fun ha => step_of_command ((fetch_of_resetIn_inactive hr).trans
          (arbitrate_of_named (s := { s with resetIn := r }) (p := .consumer) hj hjp hready ha))⟩⟩

/-- Settles O7: the port has something to serve, so it is the port served, and serving it refuses. -/
theorem stepRefusesReservedOpcodeAndWrongPort : Obligations.StepRefusesReservedOpcodeAndWrongPort := by
  intro s p hr hchosen
  refine ⟨fun op hd => ?_, fun i rest hd hne => ?_⟩
  · obtain ⟨r, n, -, hf⟩ := fetch_of_served hr ⟨portReady_of_reserved hd, hchosen⟩
    exact step_of_refused (hf.trans (serve_of_reserved (by cases p <;> exact hd)))
  · obtain ⟨r, n, -, hf⟩ := fetch_of_served hr ⟨portReady_of_ok hd, hchosen⟩
    exact step_of_refused (hf.trans (serve_of_wrongPort (by cases p <;> exact hd) hne))

/-- Settles O8: while reset is asserted the fetch is quiet, and so is an arbitration with no port to
choose. -/
theorem stepWithNoCommandToExecuteIsQuiet : Obligations.StepWithNoCommandToExecuteIsQuiet := by
  intro s
  refine ⟨fun n c r hr => step_of_quiet (fetch_of_resetIn_held hr), fun hp hc => ?_⟩
  have quiet (v : State) (hvp : v.producerIn = s.producerIn) (hvc : v.consumerIn = s.consumerIn) :
      arbitrate v = .quiet v := by
    rw [arbitrate, choosePort_of_neither (by rw [hvp, hp]) (by rw [hvc, hc])]
  exact ⟨fun hr => step_of_quiet ((fetch_of_resetIn_nil hr).trans (quiet s rfl rfl)),
    fun r hr => step_of_quiet ((fetch_of_resetIn_inactive hr).trans (quiet _ rfl rfl))⟩

/-- Settles O9: the release of reset is found, and its laws give each element's value. -/
theorem resetReleaseGivesTheResetValues : Obligations.ResetReleaseGivesTheResetValues := by
  intro s c r hr
  have hf := fetch_of_resetIn_release hr
  refine ⟨fun hwf => step_of_refused (by rw [hf, hwf]; rfl), fun hwf => ?_⟩
  exact ⟨{ s with resetIn := r }.release c, step_of_quiet (by rw [hf, hwf]; rfl), rfl, keyIn_zero,
    ModLatch.get_clear, rfl, rfl, rfl, rfl, rfl, rfl, screenCentre_toNat _, screenCentre_toNat _,
    rfl, rfl, rfl, rfl, rfl, rfl, rfl, rfl, rfl⟩

/-! ### Claims about every step -/

/-- Settles O10: a command leaves the configuration, and of the quiet steps only a release writes it. -/
theorem onlyReleaseOfResetChangesTheConfiguration :
    Obligations.OnlyReleaseOfResetChangesTheConfiguration := by
  intro s t h
  rcases step_cases h with ⟨i, u, hf, he⟩ | hq
  · obtain ⟨rest, r, n, -, rfl⟩ := fetch_command hf
    exact .inl ((congrArg OutsideView.cfg (exec_outside he)).trans (State.setPortIn_cfg _ _ _))
  · rcases fetch_quiet hq with ⟨r, n, rfl⟩ | ⟨c, r, hr, hwf, rfl⟩
    · exact .inl rfl
    · exact .inr ⟨c, r, hr, hwf, rfl⟩

/-- A command leaves what the agents have yet to present. -/
theorem exec_portIn {i : Instr} {s t : State} (h : exec i s = .next t) (p : Port) :
    t.portIn p = s.portIn p := by
  cases p with
  | producer => exact congrArg OutsideView.producerIn (exec_outside h)
  | consumer => exact congrArg OutsideView.consumerIn (exec_outside h)

/-- Settles O11: the fetch takes the bytes that decode to the command, which are its encoding (O2), and
the command leaves the ports. -/
theorem stepTakesOneWholeCommandFromItsPort : Obligations.StepTakesOneWholeCommandFromItsPort := by
  intro s t h
  rcases step_cases h with ⟨i, u, hf, he⟩ | hq
  · obtain ⟨rest, r, n, hd, rfl⟩ := fetch_command hf
    refine .inr ⟨i, ?_, ?_⟩
    · rw [exec_portIn he, State.portIn_setPortIn]
      exact (decodedBytesAreTheEncoding _ _ _ hd).2
    · rw [exec_portIn he, State.portIn_setPortIn_other]
      cases i.port <;> rfl
  · rcases fetch_quiet hq with ⟨r, n, rfl⟩ | ⟨c, r, -, -, rfl⟩
    · exact .inl ⟨rfl, rfl⟩
    · exact .inl ⟨rfl, rfl⟩

/-- What a command outputs: nothing, a response, or the LED byte where it is not the one presented last
(R86, R141). -/
theorem exec_out_cases {i : Instr} {s t : State} (h : exec i s = .next t) :
    t.out = s.out ∨ (∃ bytes, t.out = s.out ++ [.response bytes]) ∨
      (t.led ≠ s.ledLast ∧ t.out = s.out ++ [.led t.led]) := by
  cases i with
  | kbdReport report =>
    rcases exec_kbdReport_cases h with ⟨-, rfl⟩ | ⟨r, -, rfl⟩
    · exact .inl rfl
    · obtain ⟨-, -, hlast, hout, -⟩ := kbdBody_spec r s
      rw [ledUpdate_spec, hlast, hout]
      by_cases hled : (kbdBody r s).led = s.ledLast
      · exact .inl (by simp [hled])
      · exact .inr (.inr ⟨hled, congrArg (s.out ++ ·) (if_neg hled)⟩)
  | msReport report => rcases exec_msReport_cases h with ⟨-, rfl⟩ | ⟨r, -, rfl⟩ <;> exact .inl rfl
  | kbdPoll => cases h; exact .inr (.inl ⟨_, rfl⟩)
  | kbdRead => cases h; exact .inr (.inl ⟨_, rfl⟩)
  | msPoll => cases h; exact .inr (.inl ⟨_, rfl⟩)
  | msRead => cases h; exact .inr (.inl ⟨_, rfl⟩)

/-- Settles O12: a command outputs at most one event, and a quiet step none. -/
theorem stepOutputsAtMostOneEvent : Obligations.StepOutputsAtMostOneEvent := by
  intro s t h
  rcases step_cases h with ⟨i, u, hf, he⟩ | hq
  · obtain ⟨rest, r, n, -, rfl⟩ := fetch_command hf
    have hout := exec_out_cases he
    rw [State.setPortIn_out] at hout
    rcases hout with hout | ⟨bytes, hout⟩ | ⟨-, hout⟩
    · exact .inl hout
    · exact .inr ⟨_, hout⟩
    · exact .inr ⟨_, hout⟩
  · rcases fetch_quiet hq with ⟨r, n, rfl⟩ | ⟨c, r, -, -, rfl⟩
    · exact .inl rfl
    · exact .inl rfl

end Sys2Proof.Machine

/-! What an accepted keyboard report leaves in each element, said once: the state after `kbdAccepted` is
determined by these laws (spec/40_keyboard.md R110). -/

namespace Sys2Proof.Machine

open Sys2Proof

/-! ### The three lock bits alike -/

/-- The lock bits NUM_LOCK, CAPS_LOCK and SCROLL_LOCK (R32). -/
inductive LockBit where
  | num
  | caps
  | scroll

/-- The usage code of the key that toggles the bit (R155). -/
def LockBit.key : LockBit → Byte
  | .num => U_NUMLOCK
  | .caps => U_CAPSLOCK
  | .scroll => U_SCROLLLOCK

/-- The flag that enables the key (R155). -/
def LockBit.flag : LockBit → Feature
  | .num => .numLock
  | .caps => .capsLock
  | .scroll => .scrollLock

/-- The bit in a state. -/
def LockBit.get (b : LockBit) (s : State) : Bool :=
  match b with
  | .num => s.numLock
  | .caps => s.capsLock
  | .scroll => s.scrollLock

theorem LockBit.isLockKey_key (b : LockBit) : isLockKey b.key = true := by
  cases b <;> decide

/-- States that agree on the lock bits have one LED byte (R140). -/
theorem led_congr {s t : State} (h : ∀ b : LockBit, b.get s = b.get t) : s.led = t.led := by
  have hnum : s.numLock = t.numLock := h .num
  have hcaps : s.capsLock = t.capsLock := h .caps
  have hscroll : s.scrollLock = t.scrollLock := h .scroll
  rw [State.led, hnum, hcaps, hscroll]; rfl

theorem route_scrollLock (c : Byte) (shift : Bool) (s : State) :
    (route c shift s).scrollLock =
      (s.scrollLock ^^ (c == U_SCROLLLOCK && s.cfg.enabled .scrollLock)) := by
  cases h : isLockKey c with
  | true => rw [route_of_lock h, lockKey_scrollLock]
  | false =>
    have : c ≠ U_SCROLLLOCK := fun e => by rw [e] at h; exact absurd h (by decide)
    rw [route_of_not_lock h, beq_eq_false_iff_ne.mpr this]
    simp

/-- A lock bit after Route: flipped by its own enabled key (R155). -/
theorem route_lock (b : LockBit) (c : Byte) (shift : Bool) (s : State) :
    b.get (route c shift s) = (b.get s ^^ (c == b.key && s.cfg.enabled b.flag)) := by
  cases b with
  | num => exact route_numLock c shift s
  | caps => exact route_capsLock c shift s
  | scroll => exact route_scrollLock c shift s

/-- A lock bit after routing keys one after another: flipped once for each of its own enabled key among
them (R155, R172). -/
theorem routes_lock (b : LockBit) (shift : Bool) (keys : List Byte) (s : State) :
    b.get (keys.foldl (fun v c => route c shift v) s) =
      (b.get s ^^ (s.cfg.enabled b.flag && (keys.count b.key).bodd)) := by
  induction keys generalizing s with
  | nil => simp
  | cons c cs ih =>
    rw [List.foldl_cons, ih, route_lock, (route_frame c shift s).cfg, List.count_cons, Nat.bodd_add]
    cases c == b.key <;> cases s.cfg.enabled b.flag <;> cases b.get s <;>
      cases (cs.count b.key).bodd <;> rfl

/-! ### What the modifier pass leaves -/

@[simp] theorem modifierPass_lock (m : Byte) (s : State) (b : LockBit) :
    b.get (modifierPass m s) = b.get s := by
  rw [modifierPass_frame]; cases b <;> rfl

/-! ### The accepted report -/

theorem exec_kbdReport_accepted {report : List Byte} {r : KbdFields} (h : kbdFields report = some r)
    (s : State) : exec (.kbdReport report) s = .next (kbdAccepted r s) := by
  rw [exec_kbdReport_of_fields h, kbdAccepted_eq]

/-- A report of six slots is accepted (R111). -/
theorem exec_kbdReport_slots {slots : List Byte} (m r : Byte) (h : slots.length = 6) (s : State) :
    exec (.kbdReport (m :: r :: slots)) s = .next (kbdAccepted ⟨m, r, slots⟩ s) :=
  exec_kbdReport_accepted (kbdFields_cons m r h) s

/-- The fields of a report are the report: two bytes and six slots (R81). -/
theorem kbdFields_eq_some {report : List Byte} {r : KbdFields} (h : kbdFields report = some r) :
    report = r.mods :: r.reserved :: r.slots ∧ r.slots.length = 6 := by
  unfold kbdFields at h
  split at h
  · cases h; exact ⟨rfl, rfl⟩
  · cases h

variable (r : KbdFields) (s : State)

theorem kbdBody_of_rollover {r : KbdFields} {s : State} (h : isRollover s.cfg r.slots = true) :
    kbdBody r s = modifierPass r.mods s := by
  rw [kbdBody, if_pos h]

theorem kbdAccepted_mouse : (kbdAccepted r s).mouse = s.mouse := by
  rw [kbdAccepted_eq, ledUpdate_spec]; exact (kbdBody_spec r s).1

theorem kbdAccepted_outside : (kbdAccepted r s).outside = s.outside := by
  rw [kbdAccepted_eq, ledUpdate_spec]; exact (kbdBody_spec r s).2.1

theorem kbdAccepted_cfg : (kbdAccepted r s).cfg = s.cfg :=
  congrArg OutsideView.cfg (kbdAccepted_outside r s)

/-- The latches (R115). -/
theorem kbdAccepted_latch (j : Modifier) :
    (kbdAccepted r s).modlatch.get j = latchAfter r.mods s j := by
  obtain ⟨-, -, -, -, hlatch, -⟩ := kbdBody_spec r s
  rw [kbdAccepted_eq, ledUpdate_spec]; exact hlatch j

/-- KEYMAP: kept by a rollover report, else the processed codes, under LITERAL_AND those that were down
(R122, R130 to R132). -/
theorem kbdAccepted_keyIn (c : Byte) :
    keyIn (kbdAccepted r s).keymap c =
      if isRollover s.cfg r.slots then keyIn s.keymap c
      else decide (c ∈ processed r.slots) && (s.cfg.pKbCommit == .scanSet || keyIn s.keymap c) := by
  rw [kbdAccepted_eq, ledUpdate_spec]
  cases hroll : isRollover s.cfg r.slots with
  | true => rw [kbdBody_of_rollover hroll, if_pos rfl]; exact congrArg (keyIn · c) (modifierPass_keymap _ _)
  | false =>
    obtain ⟨k, hk, hbody⟩ := kbdBody_scan hroll
    rw [hbody, if_neg Bool.false_ne_true]
    exact hk c

/-- A lock bit: kept by a rollover report, else flipped once for each rising edge of its own enabled key
(R122, R155). -/
theorem kbdAccepted_lock (b : LockBit) :
    b.get (kbdAccepted r s) =
      (b.get s ^^ (!isRollover s.cfg r.slots && s.cfg.enabled b.flag &&
        ((risingKeys s.cfg s.keymap r.slots).count b.key).bodd)) := by
  have hled : b.get (kbdAccepted r s) = b.get (kbdBody r s) := by
    rw [kbdAccepted_eq, ledUpdate_spec]; cases b <;> rfl
  rw [hled]
  cases hroll : isRollover s.cfg r.slots with
  | true => rw [kbdBody_of_rollover hroll]; simp
  | false =>
    obtain ⟨k, -, hbody⟩ := kbdBody_scan hroll
    have hroutes := routes_lock b (shiftPressed r.mods) (risingKeys s.cfg s.keymap r.slots)
      (modifierPass r.mods s)
    rw [modifierPass_cfg, modifierPass_lock] at hroutes
    rw [hbody, Bool.not_false, Bool.true_and, ← hroutes]
    cases b <;> rfl

/-- LED_LAST is the LED byte of the lock bits (R142). -/
theorem kbdAccepted_ledLast : (kbdAccepted r s).ledLast = (kbdAccepted r s).led := by
  rw [kbdAccepted_eq, ledUpdate_spec]; rfl

/-- The LED byte is presented exactly on change (R141). -/
theorem kbdAccepted_out :
    (kbdAccepted r s).out =
      s.out ++ if (kbdAccepted r s).led = s.ledLast then [] else [.led (kbdAccepted r s).led] := by
  obtain ⟨-, -, hlast, hout, -⟩ := kbdBody_spec r s
  rw [kbdAccepted_eq, ledUpdate_spec, hlast, hout]; rfl

/-- The codes an accepted report appends (R146). -/
def reportCodes (r : KbdFields) (s : State) : List Byte :=
  modifierCodes r.mods s ++
    if isRollover s.cfg r.slots then []
    else routedCodes (shiftPressed r.mods) (risingKeys s.cfg s.keymap r.slots) s

theorem commandCodes_of_fields {report : List Byte} {r : KbdFields} (h : kbdFields report = some r)
    (s : State) : commandCodes (.kbdReport report) s = reportCodes r s := by
  simp [commandCodes, reportCodes, h]

theorem reportCodes_of_rollover {r : KbdFields} {s : State} (h : isRollover s.cfg r.slots = true) :
    reportCodes r s = modifierCodes r.mods s := by
  rw [reportCodes, if_pos h, List.append_nil]

theorem reportCodes_of_scan {r : KbdFields} {s : State} (h : isRollover s.cfg r.slots = false) :
    reportCodes r s = modifierCodes r.mods s ++
      routedCodes (shiftPressed r.mods) (risingKeys s.cfg s.keymap r.slots) s := by
  rw [reportCodes, if_neg (by simp [h])]

/-- OBUF and KB_UPDATED: the report's codes are appended (R145, R146). -/
theorem kbdAccepted_emits {r : KbdFields} {s : State} (h : r.slots.length = 6) :
    Emits (reportCodes r s) s (kbdAccepted r s) := by
  have hf := kbdFields_cons r.mods r.reserved h
  rw [← commandCodes_of_fields hf]
  exact exec_emits nofun (exec_kbdReport_accepted hf s)

end Sys2Proof.Machine

/-! The invariant as claims: reset gives it, and every step keeps it (spec/10_state.md R43). -/

namespace Sys2Proof.Machine

open Sys2Proof

/-! ### Reset -/

/-- The reset values meet the invariant (R25, R41). -/
theorem invariant_resetWith {c : Config} (h : c.wf = true) : Invariant (State.resetWith c) where
  cfg_wf := h
  obuf_length := List.length_replicate
  mx_le := (screenCentre_toNat c.pW).trans_le (Nat.div_le_self _ _)
  my_le := (screenCentre_toNat c.pH).trans_le (Nat.div_le_self _ _)
  led_last := (by decide : (0 : Byte) = ledByte false false false)
  latch_disabled := fun j _ => ModLatch.get_clear j
  keymap_of_report := ⟨[], Nat.zero_le _, fun c hc => absurd ((keyIn_zero c).symm.trans hc) nofun⟩
  literal_keymap := fun _ => rfl
  snap_current := .inr ⟨rfl, rfl, rfl, rfl, rfl⟩

/-- Settles O13: the default configuration is in its domain too. -/
theorem resetStateMeetsTheInvariant : Obligations.ResetStateMeetsTheInvariant :=
  ⟨fun _ => invariant_resetWith, invariant_resetWith (by decide)⟩

/-! ### What the invariant does not read -/

/-- The invariant reads the configuration, the keyboard's elements but KB_UPDATED and the mouse's but
COPY. -/
theorem Invariant.of_views {s t : State} (h : Invariant s) (hcfg : t.cfg = s.cfg)
    (hkeyboard : { t.keyboard with kbUpdated := s.kbUpdated } = s.keyboard)
    (hmouse : { t.mouse with copy := s.copy } = s.mouse) : Invariant t := by
  simp only [State.keyboard, KeyboardView.mk.injEq, and_true] at hkeyboard
  simp only [State.mouse, MouseView.mk.injEq, and_true] at hmouse
  obtain ⟨hkeymap, hlatch, hnum, hcaps, hscroll, hlast, hobuf⟩ := hkeyboard
  obtain ⟨hmx, hmy, hphase, hbtn, hsnap⟩ := hmouse
  constructor
  · rw [hcfg]; exact h.cfg_wf
  · rw [hobuf, hcfg]; exact h.obuf_length
  · rw [hmx, hcfg]; exact h.mx_le
  · rw [hmy, hcfg]; exact h.my_le
  · rw [hlast, State.led, hnum, hcaps, hscroll]; exact h.led_last
  · rw [hcfg, hlatch]; exact h.latch_disabled
  · rw [hkeymap]; exact h.keymap_of_report
  · rw [hcfg, hkeymap]; exact h.literal_keymap
  · rw [hsnap, hbtn, hphase, hmx, hmy, hcfg]; exact h.snap_current

/-! ### A keyboard report -/

theorem mem_slots_of_mem_processed {slots : List Byte} {c : Byte} (h : c ∈ processed slots) : c ∈ slots :=
  (List.takeWhile_sublist _).mem h

theorem ne_empty_of_mem_processed {slots : List Byte} {c : Byte} (h : c ∈ processed slots) :
    c ≠ U_EMPTY := by
  have := List.mem_takeWhile_imp h
  simpa using this

/-- A report that processes 0x01 is a rollover report by either reading (R120). -/
theorem isRollover_of_mem_processed {slots : List Byte} (h : U_ROLLOVER ∈ processed slots) (cfg : Config) :
    isRollover cfg slots = true := by
  unfold isRollover
  cases cfg.pPhantomScope with
  | allSlots => exact List.contains_iff_mem.mpr (mem_slots_of_mem_processed h)
  | untilZero => exact List.contains_iff_mem.mpr h

theorem ne_rollover_of_mem_processed {cfg : Config} {slots : List Byte} {c : Byte}
    (hroll : isRollover cfg slots = false) (h : c ∈ processed slots) : c ≠ U_ROLLOVER := by
  rintro rfl
  exact Bool.false_ne_true (hroll.symm.trans (isRollover_of_mem_processed h cfg))

/-- The codes in KEYMAP are those of one report, as they were or of this one (R30, R125). -/
theorem kbdAccepted_keymap_of_report {r : KbdFields} {s : State} (hlen : r.slots.length = 6)
    (h : Invariant s) : ∃ slots : List Byte, slots.length ≤ 6 ∧
      ∀ c : Byte, keyIn (kbdAccepted r s).keymap c = true → c ∈ slots ∧ c ≠ U_EMPTY ∧ c ≠ U_ROLLOVER := by
  cases hroll : isRollover s.cfg r.slots with
  | true => simpa only [kbdAccepted_keyIn, hroll, if_true] using h.keymap_of_report
  | false =>
    refine ⟨r.slots, hlen.le, fun c hc => ?_⟩
    rw [kbdAccepted_keyIn, hroll, if_neg Bool.false_ne_true, Bool.and_eq_true, decide_eq_true_eq] at hc
    obtain ⟨hmem, -⟩ := hc
    exact ⟨mem_slots_of_mem_processed hmem, ne_empty_of_mem_processed hmem,
      ne_rollover_of_mem_processed hroll hmem⟩

/-- Under LITERAL_AND an empty KEYMAP stays empty (R132). -/
theorem kbdAccepted_literal_keymap {r : KbdFields} {s : State} (hmode : s.cfg.pKbCommit = .literalAnd)
    (h : s.keymap = 0) : (kbdAccepted r s).keymap = 0 := by
  refine keySet_ext fun c => ?_
  have hzero : keyIn (0 : KeySet) c = false := keyIn_zero c
  rw [kbdAccepted_keyIn, h, hzero, hmode]
  simp

/-- A disabled modifier's clear latch stays clear (R117, R118). -/
theorem latchAfter_of_disabled {m : Byte} {s : State} {j : Modifier}
    (hdis : s.cfg.enabled j.feature = false) (hclear : s.modlatch.get j = false) :
    latchAfter m s j = false := by
  rw [latchAfter, hdis, hclear, Bool.or_false, Bool.and_false]

theorem invariant_kbdAccepted {r : KbdFields} {s : State} (hlen : r.slots.length = 6) (h : Invariant s) :
    Invariant (kbdAccepted r s) := by
  have hcfg := kbdAccepted_cfg r s
  have hmouse := kbdAccepted_mouse r s
  simp only [State.mouse, MouseView.mk.injEq] at hmouse
  obtain ⟨hmx, hmy, hphase, hbtn, hsnap, -⟩ := hmouse
  constructor
  · rw [hcfg]; exact h.cfg_wf
  · rw [(kbdAccepted_emits hlen).obuf, obufAppendAll_length, hcfg]; exact h.obuf_length
  · rw [hmx, hcfg]; exact h.mx_le
  · rw [hmy, hcfg]; exact h.my_le
  · exact kbdAccepted_ledLast r s
  · intro j hdis
    rw [hcfg] at hdis
    rw [kbdAccepted_latch, latchAfter_of_disabled hdis (h.latch_disabled j hdis)]
  · exact kbdAccepted_keymap_of_report hlen h
  · intro hmode
    rw [hcfg] at hmode
    exact kbdAccepted_literal_keymap hmode (h.literal_keymap hmode)
  · rw [hsnap, hbtn, hphase, hmx, hmy, hcfg]; exact h.snap_current

/-! ### A mouse report -/

/-- The accumulator stays on the screen and SNAP publishes it (R209, R210). -/
theorem invariant_publish_moveMouse {s : State} (r : MsFields) (h : Invariant s) :
    Invariant (moveMouse r s).publish where
  cfg_wf := h.cfg_wf
  obuf_length := h.obuf_length
  mx_le := clampMove_le h.mx_le
  my_le := clampMove_le h.my_le
  led_last := h.led_last
  latch_disabled := h.latch_disabled
  keymap_of_report := h.keymap_of_report
  literal_keymap := h.literal_keymap
  snap_current := .inl rfl

/-! ### Every step -/

/-- Every command keeps the invariant: the reports by the two lemmas above, the polls and reads because
they write KB_UPDATED, COPY and the trace alone. -/
theorem exec_keeps_invariant {i : Instr} {s t : State} (h : Invariant s) (he : exec i s = .next t) :
    Invariant t := by
  cases i with
  | kbdReport report =>
    rcases exec_kbdReport_cases he with ⟨-, rfl⟩ | ⟨r, hr, rfl⟩
    · exact h
    · rw [← kbdAccepted_eq]
      exact invariant_kbdAccepted (kbdFields_eq_some hr).2 h
  | msReport report =>
    rcases exec_msReport_cases he with ⟨-, rfl⟩ | ⟨r, -, rfl⟩
    · exact h
    · exact invariant_publish_moveMouse r h
  | kbdPoll => cases he; exact h.of_views rfl rfl rfl
  | kbdRead => cases he; exact h.of_views rfl rfl rfl
  | msPoll => cases he; exact h.of_views rfl rfl rfl
  | msRead => cases he; exact h.of_views rfl rfl rfl

/-- Settles O14: taking a command's bytes touches nothing the invariant reads and the command keeps it; a
quiet step is the same or leaves the reset values. -/
theorem everyStepKeepsTheInvariant : Obligations.EveryStepKeepsTheInvariant := by
  intro s t h hstep
  rcases step_cases hstep with ⟨i, u, hf, he⟩ | hq
  · obtain ⟨rest, r, n, -, rfl⟩ := fetch_command hf
    refine exec_keeps_invariant (h.of_views ?_ ?_ ?_) he <;> cases i.port <;> rfl
  · rcases fetch_quiet hq with ⟨r, n, rfl⟩ | ⟨c, r, -, hwf, rfl⟩
    · exact h.of_views rfl rfl rfl
    · exact (invariant_resetWith hwf).of_views rfl rfl rfl

end Sys2Proof.Machine

/-! Keyboard reports as claims (spec/40_keyboard.md): lengths, frame, latches, rollover reports, the scan
and its commit, and the LED update. -/

namespace Sys2Proof.Machine

open Sys2Proof

/-! ### Lengths -/

/-- A mouse report whose length is neither 3 nor 6 changes nothing (R201). -/
theorem exec_msReport_of_length_ne {report : List Byte} (h3 : report.length ≠ 3) (h6 : report.length ≠ 6)
    (s : State) : exec (.msReport report) s = .next s := by
  obtain ⟨t, ht⟩ := exec_next (.msReport report) s
  rcases exec_msReport_cases ht with ⟨-, rfl⟩ | ⟨r, hr, -⟩
  · exact ht
  · exact absurd ((msFields_isSome report).mp (by simp [hr])) (by simp [h3, h6])

/-- Settles O15: such a report has no fields. -/
theorem reportOfWrongLengthIsRejected : Obligations.ReportOfWrongLengthIsRejected := fun _ s =>
  ⟨fun h => exec_kbdReport_of_length_ne h s, fun h3 h6 => exec_msReport_of_length_ne h3 h6 s⟩

/-! ### The codes of a report -/

theorem routedCodes_length (shift : Bool) (keys : List Byte) (s : State) :
    (routedCodes shift keys s).length ≤ keys.length := by
  induction keys generalizing s with
  | nil => exact Nat.le_refl _
  | cons c cs ih =>
    have hc : (if isLockKey c then []
        else (keyCode s.cfg s.numLock s.capsLock shift c).toList).length ≤ 1 := by
      split
      · exact Nat.zero_le _
      · cases keyCode s.cfg s.numLock s.capsLock shift c <;> simp
    have hcs := ih (route c shift s)
    simp only [routedCodes, List.length_append, List.length_cons]
    omega

/-- An accepted report appends at most twelve codes (R145). -/
theorem reportCodes_length {r : KbdFields} (h : r.slots.length = 6) (s : State) :
    (reportCodes r s).length ≤ 12 := by
  have hmods := modifierCodes_length r.mods s
  cases hroll : isRollover s.cfg r.slots with
  | true => rw [reportCodes_of_rollover hroll]; omega
  | false =>
    have hkeys := risingKeys_length s.cfg s.keymap r.slots
    have hcodes := routedCodes_length (shiftPressed r.mods) (risingKeys s.cfg s.keymap r.slots) s
    rw [reportCodes_of_scan hroll, List.length_append]
    omega

/-- Keys that are no lock keys append each its entry by the lock bits at the start (R150). -/
theorem routedCodes_of_no_lock (shift : Bool) {keys : List Byte} (s : State)
    (h : ∀ c ∈ keys, isLockKey c = false) :
    routedCodes shift keys s = keys.filterMap (keyCode s.cfg s.numLock s.capsLock shift) := by
  induction keys with
  | nil => rfl
  | cons c cs ih =>
    have hc := h c List.mem_cons_self
    have hroute := route_of_not_lock hc shift s
    have hrest : routedCodes shift cs (route c shift s) = routedCodes shift cs s :=
      routedCodes_congr shift cs (route_frame c shift s).cfg (by rw [hroute, appendEntry_numLock])
        (by rw [hroute, appendEntry_capsLock])
    rw [routedCodes, hrest, ih fun d hd => h d (List.mem_cons_of_mem _ hd), hc, List.filterMap_cons]
    cases keyCode s.cfg s.numLock s.capsLock shift c <;> rfl

/-- Keys that are no lock keys flip no lock bit (R155). -/
theorem count_lockBit_key_eq_zero {keys : List Byte} (h : ∀ c ∈ keys, isLockKey c = false) (b : LockBit) :
    keys.count b.key = 0 :=
  List.count_eq_zero.mpr fun hmem => Bool.false_ne_true ((h _ hmem).symm.trans b.isLockKey_key)

/-- A report without a rising lock key leaves the lock bits (R155). -/
theorem kbdAccepted_lock_of_no_lock {r : KbdFields} {s : State}
    (h : ∀ c ∈ risingKeys s.cfg s.keymap r.slots, isLockKey c = false) (b : LockBit) :
    b.get (kbdAccepted r s) = b.get s := by
  rw [kbdAccepted_lock, count_lockBit_key_eq_zero h]
  simp

/-! ### The frame and the latches -/

/-- Settles O16: the codes are the report's own, at most six modifiers' and at most one per slot. -/
theorem keyboardReportCompletesAndItsFrame : Obligations.KeyboardReportCompletesAndItsFrame := by
  intro report s hlen
  obtain ⟨r, hr⟩ := Option.isSome_iff_exists.mp ((kbdFields_isSome report).mpr hlen)
  obtain ⟨-, hslots⟩ := kbdFields_eq_some hr
  have hemits := kbdAccepted_emits (s := s) hslots
  have hexec := exec_kbdReport_accepted hr s
  refine ⟨_, _, hexec, kbdAccepted_mouse r s, kbdAccepted_outside r s, reportCodes_length hslots s,
    hemits.obuf, hemits.kbUpdated, ?_⟩
  rw [kbdAccepted_out]
  split
  · exact .inl (List.append_nil _)
  · exact .inr ⟨_, rfl⟩

/-- Settles O18: the latches are those of the modifier pass. -/
theorem modifierLatchesFollowTheModifierByte : Obligations.ModifierLatchesFollowTheModifierByte := by
  intro m r slots s hlen
  exact ⟨_, exec_kbdReport_slots m r hlen s, kbdAccepted_latch _ s⟩

/-! ### Rollover reports -/

/-- A rollover report leaves KEYMAP (R122). -/
theorem kbdAccepted_keymap_of_rollover {r : KbdFields} {s : State} (h : isRollover s.cfg r.slots = true) :
    (kbdAccepted r s).keymap = s.keymap :=
  keySet_ext fun c => by rw [kbdAccepted_keyIn, if_pos h]

/-- A rollover report leaves the lock bits (R122). -/
theorem kbdAccepted_lock_of_rollover {r : KbdFields} {s : State} (h : isRollover s.cfg r.slots = true)
    (b : LockBit) : b.get (kbdAccepted r s) = b.get s := by
  rw [kbdAccepted_lock, h]
  simp

/-- A rollover report appends the modifier codes alone (R122). -/
theorem kbdAccepted_emits_of_rollover {r : KbdFields} {s : State} (hlen : r.slots.length = 6)
    (h : isRollover s.cfg r.slots = true) : Emits (modifierCodes r.mods s) s (kbdAccepted r s) :=
  reportCodes_of_rollover h ▸ kbdAccepted_emits hlen

/-- Settles O19: each clause is a law of a rollover report. -/
theorem rolloverReportEmitsOnlyModifierCodes : Obligations.RolloverReportEmitsOnlyModifierCodes := by
  intro m r slots s hlen hroll
  have hemits := kbdAccepted_emits_of_rollover (r := ⟨m, r, slots⟩) hlen hroll
  have hlock := kbdAccepted_lock_of_rollover (r := ⟨m, r, slots⟩) hroll
  exact ⟨_, exec_kbdReport_slots m r hlen s, hemits.obuf, hemits.kbUpdated,
    kbdAccepted_keymap_of_rollover hroll, hlock .num, hlock .caps, hlock .scroll⟩

/-! ### The scan and the commit -/

theorem kbdAccepted_keyIn_of_scan {r : KbdFields} {s : State} (h : isRollover s.cfg r.slots = false)
    (c : Byte) : keyIn (kbdAccepted r s).keymap c =
      (decide (c ∈ processed r.slots) && (s.cfg.pKbCommit == .scanSet || keyIn s.keymap c)) := by
  rw [kbdAccepted_keyIn, if_neg (by simp [h])]

/-- A report that is no rollover report appends its modifier codes and then its routed codes (R146). -/
theorem kbdAccepted_emits_of_scan {r : KbdFields} {s : State} (hlen : r.slots.length = 6)
    (h : isRollover s.cfg r.slots = false) :
    Emits (modifierCodes r.mods s ++
      routedCodes (shiftPressed r.mods) (risingKeys s.cfg s.keymap r.slots) s) s (kbdAccepted r s) :=
  reportCodes_of_scan h ▸ kbdAccepted_emits hlen

/-- Settles O20: the committed bits are those of the scan. -/
theorem committedKeymapIsTheObservedSet : Obligations.CommittedKeymapIsTheObservedSet := by
  intro m r slots s hlen hroll
  exact ⟨_, exec_kbdReport_slots m r hlen s, kbdAccepted_keyIn_of_scan (r := ⟨m, r, slots⟩) hroll⟩

/-- Settles O21: the rising keys are processed codes, so none of them is a lock key. -/
theorem reportEmitsModifierCodesThenRisingKeysInSlotOrder :
    Obligations.ReportEmitsModifierCodesThenRisingKeysInSlotOrder := by
  intro m r slots s hlen hroll hno
  have hkeys : ∀ c ∈ risingKeys s.cfg s.keymap slots, isLockKey c = false :=
    fun c hc => hno c (mem_risingKeys.mp hc).1
  have hemits := kbdAccepted_emits_of_scan (r := ⟨m, r, slots⟩) hlen hroll
  rw [routedCodes_of_no_lock _ s hkeys] at hemits
  have hlock := kbdAccepted_lock_of_no_lock (r := ⟨m, r, slots⟩) hkeys
  exact ⟨_, exec_kbdReport_slots m r hlen s, hemits.obuf, hlock .num, hlock .caps, hlock .scroll⟩

/-- Settles O22: routing the rising keys after appending the modifier codes appends the report's codes,
and flips the lock bits as the report does. -/
theorem risingKeysAreRoutedOneAfterAnother : Obligations.RisingKeysAreRoutedOneAfterAnother := by
  intro m r slots s hlen hroll
  refine ⟨_, exec_kbdReport_slots m r hlen s, ?_⟩
  intro u
  have hemits := kbdAccepted_emits_of_scan (r := ⟨m, r, slots⟩) hlen hroll
  have happ := appends_eq (modifierCodes m s) s
  have huemits : Emits (modifierCodes m s ++
      routedCodes (shiftPressed m) (risingKeys s.cfg s.keymap slots) s) s u := by
    refine Emits.trans (t := (modifierCodes m s).foldl State.append s) (by rw [happ]; exact ⟨rfl, rfl⟩) ?_
    have hcongr := routedCodes_congr (shiftPressed m) (risingKeys s.cfg s.keymap slots)
      (s := s) (t := (modifierCodes m s).foldl State.append s) (by rw [happ]) (by rw [happ]) (by rw [happ])
    exact hcongr ▸ routedCodes_emits _ _ _
  have hlock (b : LockBit) : b.get (kbdAccepted ⟨m, r, slots⟩ s) = b.get u := by
    rw [kbdAccepted_lock, hroll, routes_lock, happ]
    cases b <;> rfl
  exact ⟨hemits.obuf.trans huemits.obuf.symm, hemits.kbUpdated.trans huemits.kbUpdated.symm, hlock .num,
    hlock .caps, hlock .scroll⟩

/-! ### Slots that are not processed -/

/-- An accepted report reads of its slots the processed ones and the answer of the rollover check (R120,
R128). -/
theorem kbdAccepted_congr_slots {m r r' : Byte} {slots slots' : List Byte} {s : State}
    (hproc : processed slots = processed slots') (hroll : isRollover s.cfg slots = isRollover s.cfg slots') :
    kbdAccepted ⟨m, r, slots⟩ s = kbdAccepted ⟨m, r', slots'⟩ s := by
  simp only [kbdAccepted_eq, kbdBody, keyScan_processed, hproc, hroll]

/-- A report that processes no code and is no rollover report empties KEYMAP (R128, R130). -/
theorem kbdAccepted_keymap_of_none_processed {r : KbdFields} {s : State}
    (hroll : isRollover s.cfg r.slots = false) (hproc : processed r.slots = []) :
    (kbdAccepted r s).keymap = 0 := by
  refine keySet_ext fun c => ?_
  rw [kbdAccepted_keyIn_of_scan hroll, hproc]
  exact (keyIn_zero c).symm

/-- A report whose processed codes are all down routes nothing (R126). -/
theorem risingKeys_of_all_down {cfg : Config} {keymap : KeySet} {slots : List Byte}
    (h : ∀ c ∈ processed slots, keyIn keymap c = true) : risingKeys cfg keymap slots = [] := by
  refine List.eq_nil_iff_forall_not_mem.mpr fun c hc => ?_
  obtain ⟨hmem, hup⟩ := mem_risingKeys.mp hc
  exact Bool.false_ne_true (hup.symm.trans (h c hmem))

/-- Such a report appends the modifier codes alone. -/
theorem kbdAccepted_emits_of_all_down {r : KbdFields} {s : State} (hlen : r.slots.length = 6)
    (hroll : isRollover s.cfg r.slots = false) (h : ∀ c ∈ processed r.slots, keyIn s.keymap c = true) :
    Emits (modifierCodes r.mods s) s (kbdAccepted r s) := by
  have hemits := kbdAccepted_emits_of_scan hlen hroll
  rwa [risingKeys_of_all_down h, routedCodes, List.append_nil] at hemits

/-- Settles O23: the report reads the processed slots and the rollover check only; with 0x00 in slot 0
there are none; and under ALL_SLOTS a 0x01 in any slot makes a rollover report. -/
theorem slotsAfterTheFirstZeroAreNotProcessed : Obligations.SlotsAfterTheFirstZeroAreNotProcessed := by
  refine ⟨fun m r r' slots slots' s hlen hlen' hproc hroll => ?_, fun m r slots s hlen hroll => ?_,
    fun m r slots s hlen hscope hmem => ?_⟩
  · rw [exec_kbdReport_slots m r hlen, exec_kbdReport_slots m r' hlen',
      kbdAccepted_congr_slots hproc hroll]
  · have hlen6 : (0 :: slots).length = 6 := by rw [List.length_cons, hlen]
    have hproc : processed (0 :: slots) = [] := processed_zero slots
    exact ⟨_, exec_kbdReport_slots m r hlen6 s,
      kbdAccepted_keymap_of_none_processed (r := ⟨m, r, 0 :: slots⟩) hroll hproc,
      (kbdAccepted_emits_of_all_down (r := ⟨m, r, 0 :: slots⟩) hlen6 hroll
        (by rw [hproc]; exact List.forall_mem_nil _)).obuf⟩
  · have hroll : isRollover s.cfg slots = true := by
      rw [isRollover, hscope]; exact List.contains_iff_mem.mpr hmem
    exact ⟨_, exec_kbdReport_slots m r hlen s, kbdAccepted_keymap_of_rollover (r := ⟨m, r, slots⟩) hroll,
      (kbdAccepted_emits_of_rollover (r := ⟨m, r, slots⟩) hlen hroll).obuf⟩

/-! ### Held keys, releases and repeated reports -/

theorem kbdAccepted_lock_of_all_down {r : KbdFields} {s : State}
    (h : ∀ c ∈ processed r.slots, keyIn s.keymap c = true) (b : LockBit) :
    b.get (kbdAccepted r s) = b.get s :=
  kbdAccepted_lock_of_no_lock (by rw [risingKeys_of_all_down h]; exact List.forall_mem_nil _) b

/-- A report that flips no lock bit presents no LED byte if LED_LAST was the LED byte (R141, R142). -/
theorem kbdAccepted_out_of_lock {r : KbdFields} {s : State} (hlast : s.ledLast = s.led)
    (h : ∀ b : LockBit, b.get (kbdAccepted r s) = b.get s) : (kbdAccepted r s).out = s.out := by
  rw [kbdAccepted_out, if_pos ((led_congr h).trans hlast.symm), List.append_nil]

/-- Settles O24: no rising key and no rising modifier leaves nothing to append and nothing to flip. -/
theorem heldKeysAndReleasesAreSilent : Obligations.HeldKeysAndReleasesAreSilent := by
  intro m r slots s hlen hroll hdown hmods
  have hemits := kbdAccepted_emits_of_all_down (r := ⟨m, r, slots⟩) hlen hroll hdown
  rw [show modifierCodes m s = [] by rw [modifierCodes, hmods]; rfl] at hemits
  have hlock := kbdAccepted_lock_of_all_down (r := ⟨m, r, slots⟩) hdown
  exact ⟨_, exec_kbdReport_slots m r hlen s, hemits.obuf, by simpa using hemits.kbUpdated, hlock .num,
    hlock .caps, hlock .scroll, fun hinv => kbdAccepted_out_of_lock hinv.led_last hlock⟩

/-- The four views are the whole state. -/
theorem State.ext_views {s t : State} (hkeyboard : s.keyboard = t.keyboard) (hmouse : s.mouse = t.mouse)
    (houtside : s.outside = t.outside) (hout : s.out = t.out) : s = t := by
  cases s; cases t
  simp only [State.keyboard, KeyboardView.mk.injEq] at hkeyboard
  simp only [State.mouse, MouseView.mk.injEq] at hmouse
  simp only [State.outside, OutsideView.mk.injEq] at houtside
  simp_all

/-- No modifier rises in a report presented again: its latch is set or its category disabled (R117,
R118). -/
theorem risingModifiers_of_kbdAccepted (r : KbdFields) (s : State) :
    risingModifiers r.mods (kbdAccepted r s) = [] := by
  refine List.filter_eq_nil_iff.mpr fun j _ => ?_
  rw [kbdAccepted_cfg, kbdAccepted_latch, latchAfter]
  cases r.mods.getLsbD j.bit <;> cases s.cfg.enabled j.feature <;> simp

/-- Under SCAN_SET the codes of a report that is no rollover report are down after it (R131). -/
theorem keyIn_kbdAccepted_of_processed {r : KbdFields} {s : State} {c : Byte}
    (hmode : s.cfg.pKbCommit = .scanSet) (hroll : isRollover s.cfg r.slots = false)
    (hc : c ∈ processed r.slots) : keyIn (kbdAccepted r s).keymap c = true := by
  rw [kbdAccepted_keyIn_of_scan hroll, hmode, decide_eq_true hc]
  rfl

/-- Under SCAN_SET an accepted report presented again appends nothing and flips no lock bit (R118, R126). -/
theorem kbdAccepted_again_silent {r : KbdFields} {s : State} (hlen : r.slots.length = 6)
    (hmode : s.cfg.pKbCommit = .scanSet) :
    Emits [] (kbdAccepted r s) (kbdAccepted r (kbdAccepted r s)) ∧
      ∀ b : LockBit, b.get (kbdAccepted r (kbdAccepted r s)) = b.get (kbdAccepted r s) := by
  have hcodes : modifierCodes r.mods (kbdAccepted r s) = [] := by
    rw [modifierCodes, risingModifiers_of_kbdAccepted]; rfl
  have hcfg := kbdAccepted_cfg r s
  cases hroll : isRollover s.cfg r.slots with
  | true =>
    rw [← hcfg] at hroll
    exact ⟨hcodes ▸ kbdAccepted_emits_of_rollover hlen hroll, kbdAccepted_lock_of_rollover hroll⟩
  | false =>
    have hdown : ∀ c ∈ processed r.slots, keyIn (kbdAccepted r s).keymap c = true :=
      fun c hc => keyIn_kbdAccepted_of_processed hmode hroll hc
    rw [← hcfg] at hroll
    exact ⟨hcodes ▸ kbdAccepted_emits_of_all_down hlen hroll hdown, kbdAccepted_lock_of_all_down hdown⟩

/-- A report presented again leaves the latches (R117). -/
theorem kbdAccepted_again_modlatch (r : KbdFields) (s : State) :
    (kbdAccepted r (kbdAccepted r s)).modlatch = (kbdAccepted r s).modlatch := by
  refine ModLatch.ext_get fun j => ?_
  rw [kbdAccepted_latch, kbdAccepted_latch, latchAfter, kbdAccepted_latch, kbdAccepted_cfg, latchAfter]
  cases r.mods.getLsbD j.bit <;> cases s.cfg.enabled j.feature <;> rfl

/-- Under SCAN_SET a report presented again leaves KEYMAP (R131). -/
theorem kbdAccepted_again_keymap {r : KbdFields} {s : State} (hmode : s.cfg.pKbCommit = .scanSet) :
    (kbdAccepted r (kbdAccepted r s)).keymap = (kbdAccepted r s).keymap := by
  refine keySet_ext fun c => ?_
  simp only [kbdAccepted_keyIn, kbdAccepted_cfg, hmode]
  cases isRollover s.cfg r.slots <;> simp

/-- Under SCAN_SET an accepted report has, presented again, no effect (R118, R126, R142). -/
theorem kbdAccepted_again {r : KbdFields} {s : State} (hlen : r.slots.length = 6)
    (hmode : s.cfg.pKbCommit = .scanSet) :
    kbdAccepted r (kbdAccepted r s) = kbdAccepted r s := by
  obtain ⟨hemits, hlock⟩ := kbdAccepted_again_silent hlen hmode
  have hupd := hemits.kbUpdated
  rw [List.isEmpty_nil, Bool.not_true, Bool.or_false] at hupd
  have hlast : (kbdAccepted r (kbdAccepted r s)).ledLast = (kbdAccepted r s).ledLast := by
    rw [kbdAccepted_ledLast, kbdAccepted_ledLast, led_congr hlock]
  have hnum : (kbdAccepted r (kbdAccepted r s)).numLock = (kbdAccepted r s).numLock := hlock .num
  have hcaps : (kbdAccepted r (kbdAccepted r s)).capsLock = (kbdAccepted r s).capsLock := hlock .caps
  have hscroll : (kbdAccepted r (kbdAccepted r s)).scrollLock = (kbdAccepted r s).scrollLock :=
    hlock .scroll
  refine State.ext_views ?_ (kbdAccepted_mouse _ _) (kbdAccepted_outside _ _)
    (kbdAccepted_out_of_lock (kbdAccepted_ledLast r s) hlock)
  rw [State.keyboard, kbdAccepted_again_keymap hmode, kbdAccepted_again_modlatch, hnum, hcaps, hscroll,
    hlast, hemits.obuf, hupd]
  rfl

/-- Settles O25: a rejected report has no effect at all, and an accepted one none the second time. -/
theorem sameReportPresentedAgainChangesNothing : Obligations.SameReportPresentedAgainChangesNothing := by
  intro report s t hmode h
  rcases exec_kbdReport_cases h with ⟨-, rfl⟩ | ⟨r, hr, rfl⟩
  · exact h
  · rw [← kbdAccepted_eq, exec_kbdReport_accepted hr, kbdAccepted_again (kbdFields_eq_some hr).2 hmode]

/-! ### The LED update and the lock bits -/

/-- Settles O26: LED_LAST ends as the LED byte, whose change alone is presented. -/
theorem ledByteIsPresentedExactlyOnChange : Obligations.LedByteIsPresentedExactlyOnChange := by
  intro report s hlen
  obtain ⟨r, hr⟩ := Option.isSome_iff_exists.mp ((kbdFields_isSome report).mpr hlen)
  refine ⟨_, exec_kbdReport_accepted hr s, kbdAccepted_ledLast r s, ?_⟩
  rw [kbdAccepted_ledLast]
  exact kbdAccepted_out r s

/-- Settles O28: the LED byte presented differs from LED_LAST, which by the invariant is that of the lock
bits before. -/
theorem ledByteOnlyWhenALockBitChanges : Obligations.LedByteOnlyWhenALockBitChanges := by
  intro i s t v hinv h hout
  have hled : t.led ≠ s.ledLast := by
    rcases exec_out_cases h with hsame | ⟨bytes, hresp⟩ | ⟨hled, -⟩
    · exact absurd (hout.symm.trans hsame) (by simp)
    · exact absurd (hout.symm.trans hresp) (by simp)
    · exact hled
  by_contra hsame
  simp only [ne_eq, not_or, not_not] at hsame
  obtain ⟨hnum, hcaps, hscroll⟩ := hsame
  exact hled (by rw [hinv.led_last, State.led, State.led, hnum, hcaps, hscroll])

/-- A lock bit that an accepted report changed: by its own enabled key, rising (R155). -/
theorem of_kbdAccepted_lock_ne {r : KbdFields} {s : State} {b : LockBit}
    (h : b.get (kbdAccepted r s) ≠ b.get s) :
    b.key ∈ risingKeys s.cfg s.keymap r.slots ∧ isRollover s.cfg r.slots = false ∧
      s.cfg.enabled b.flag = true := by
  refine ⟨by_contra fun hmem => h ?_, ?_, ?_⟩
  · rw [kbdAccepted_lock, List.count_eq_zero.mpr hmem]; simp
  · exact Bool.eq_false_iff.mpr fun hroll => h (kbdAccepted_lock_of_rollover hroll b)
  · exact by_contra fun hdis => h (by rw [kbdAccepted_lock, Bool.eq_false_iff.mpr hdis]; simp)

/-- Settles O29: a rejected report changes no lock bit, and an accepted one those of its rising lock
keys. -/
theorem lockBitsChangeOnlyByTheirEnabledKey : Obligations.LockBitsChangeOnlyByTheirEnabledKey := by
  intro m r slots s t h
  have change (b : LockBit) (hne : b.get t ≠ b.get s) : b.key ∈ risingKeys s.cfg s.keymap slots ∧
      isRollover s.cfg slots = false ∧ s.cfg.enabled b.flag = true := by
    rcases exec_kbdReport_cases h with ⟨-, rfl⟩ | ⟨f, hf, rfl⟩
    · exact absurd rfl hne
    · obtain ⟨heq, -⟩ := kbdFields_eq_some hf
      cases heq
      rw [← kbdAccepted_eq] at hne
      exact of_kbdAccepted_lock_ne hne
  exact ⟨change .num, change .caps, change .scroll⟩

end Sys2Proof.Machine

/-! A report with one newly pressed key, category by category after the letters, and two keys of which the
first is caps-lock (spec/41_keyboard_lut.md). -/

namespace Sys2Proof.Machine

open Sys2Proof

/-! ### Codes outside a category -/

/-- Every navigation code is 0x46 or lies in 0x49..0x52 (R156). -/
theorem navTable_lookup_eq_none {c : Byte} (h : c.toNat < 0x46 ∨ c.toNat = 0x48 ∨ 0x52 < c.toNat) :
    navTable.lookup c = none := by
  have hnav : ∀ p ∈ navTable, p.1.toNat = 0x46 ∨ 0x49 ≤ p.1.toNat ∧ p.1.toNat ≤ 0x52 := by decide
  refine List.lookup_eq_none_iff.mpr fun p hp => bne_iff_ne.mpr ?_
  rintro rfl
  have := hnav p hp
  omega

theorem isLockKey_eq_false {c : Byte} (h53 : c ≠ 0x53) (h39 : c ≠ 0x39) (h47 : c ≠ 0x47) :
    isLockKey c = false := by
  rw [isLockKey, beq_eq_false_iff_ne.mpr h53, beq_eq_false_iff_ne.mpr h39, beq_eq_false_iff_ne.mpr h47]
  rfl

theorem letterRow_eq_none {c : Byte} (h : c.toNat < 0x04 ∨ 0x1D < c.toNat) : letterRow c = none :=
  dif_neg (by omega)

theorem digPunctRow_eq_none {c : Byte} (h : c.toNat < 0x1E ∨ 0x38 < c.toNat) : digPunctRow c = none :=
  dif_neg (by omega)

theorem keypadRow_eq_none {c : Byte} (h : c.toNat < 0x54 ∨ 0x63 < c.toNat) (heq : c ≠ 0x67) :
    keypadRow c = none := by
  rw [keypadRow, dif_neg (by omega), if_neg heq]

theorem fkeyRow_eq_none {c : Byte} (h : c.toNat < 0x3A ∨ 0x45 < c.toNat) : fkeyRow c = none :=
  dif_neg (by omega)

/-- A code in a range differs from every code outside it. -/
theorem ne_of_range {c d : Byte} {lo hi : Nat} (h : lo ≤ c.toNat ∧ c.toNat ≤ hi)
    (hd : d.toNat < lo ∨ hi < d.toNat) : c ≠ d := by
  rintro rfl
  omega

/-! ### The rows of each category -/

theorem digPunctRow_ofNat (k : Fin 27) : digPunctRow (BitVec.ofNat 8 (0x1E + k.val)) = some k := by
  have hval : (BitVec.ofNat 8 (0x1E + k.val)).toNat = 0x1E + k.val := by
    rw [BitVec.toNat_ofNat]; omega
  rw [digPunctRow, dif_pos (by omega), Option.some.injEq, Fin.ext_iff]
  dsimp only
  omega

theorem fkeyRow_ofNat (n : Fin 12) : fkeyRow (BitVec.ofNat 8 (0x3A + n.val)) = some n := by
  have hval : (BitVec.ofNat 8 (0x3A + n.val)).toNat = 0x3A + n.val := by
    rw [BitVec.toNat_ofNat]; omega
  rw [fkeyRow, dif_pos (by omega), Option.some.injEq, Fin.ext_iff]
  dsimp only
  omega

/-- The usage code of each row of `P_KEYPAD`: 0x54 to 0x63 in order, then 0x67 (R168). -/
def keypadCode (k : Fin 17) : Byte := if k.val = 16 then 0x67 else BitVec.ofNat 8 (0x54 + k.val)

theorem keypadRow_keypadCode : ∀ k : Fin 17, keypadRow (keypadCode k) = some k := by decide

/-! ### What each category appends -/

/-- A digit or punctuation code is in no category before its own but shifted Tab's (R150, R159). -/
theorem keyCode_of_digPunctRow {c : Byte} {row : Fin 27} {shift : Bool} (h : digPunctRow c = some row)
    (hrange : 0x1E ≤ c.toNat ∧ c.toNat ≤ 0x38) (htab : ¬(c = U_TAB ∧ shift = true)) (cfg : Config)
    (num caps : Bool) : keyCode cfg num caps shift c = digPunct cfg shift c row := by
  have hnav : navTable.lookup c = none := navTable_lookup_eq_none (by omega)
  have hdel : c ≠ U_DELETE := ne_of_range hrange (by decide)
  have hletter : letterRow c = none := letterRow_eq_none (by omega)
  simp only [keyCode, hnav, if_neg hdel, if_neg htab, hletter, h]

/-- A keypad code is in no category before its own (R150, R161). -/
theorem keyCode_of_keypadRow {c : Byte} {row : Fin 17} (h : keypadRow c = some row)
    (hrange : 0x54 ≤ c.toNat ∧ c.toNat ≤ 0x67) (cfg : Config) (num caps shift : Bool) :
    keyCode cfg num caps shift c = keypad cfg num c row := by
  have hnav : navTable.lookup c = none := navTable_lookup_eq_none (by omega)
  have hdel : c ≠ U_DELETE := ne_of_range hrange (by decide)
  have htab : c ≠ U_TAB := ne_of_range hrange (by decide)
  have hletter : letterRow c = none := letterRow_eq_none (by omega)
  have hdig : digPunctRow c = none := digPunctRow_eq_none (by omega)
  simp only [keyCode, hnav, if_neg hdel, htab, false_and, if_false, hletter, hdig, h]

/-- A function key's code is in no category before its own (R150, R163). -/
theorem keyCode_of_fkeyRow {c : Byte} {n : Fin 12} (h : fkeyRow c = some n)
    (hrange : 0x3A ≤ c.toNat ∧ c.toNat ≤ 0x45) (cfg : Config) (num caps shift : Bool) :
    keyCode cfg num caps shift c = fKey cfg n := by
  have hnav : navTable.lookup c = none := navTable_lookup_eq_none (by omega)
  have hdel : c ≠ U_DELETE := ne_of_range hrange (by decide)
  have htab : c ≠ U_TAB := ne_of_range hrange (by decide)
  have hletter : letterRow c = none := letterRow_eq_none (by omega)
  have hdig : digPunctRow c = none := digPunctRow_eq_none (by omega)
  have hpad : keypadRow c = none := keypadRow_eq_none (by omega) (ne_of_range hrange (by decide))
  simp only [keyCode, hnav, if_neg hdel, htab, false_and, if_false, hletter, hdig, hpad, h]

/-- The codes of no category but 0x00 and 0x01 (R164). -/
abbrev Unmapped (c : Byte) : Prop :=
  0x02 ≤ c.toNat ∧ (c.toNat < 0x04 ∨ c.toNat = 0x48 ∨ 0x63 < c.toNat ∧ c.toNat ≠ 0x67)

theorem Unmapped.ne {c d : Byte} (h : Unmapped c) (hd : ¬Unmapped d) : c ≠ d := fun e => hd (e ▸ h)

/-- An unmapped code appends nothing (R164). -/
theorem keyCode_of_unmapped {c : Byte} (h : Unmapped c) (cfg : Config) (num caps shift : Bool) :
    keyCode cfg num caps shift c = none := by
  have hdel : c ≠ U_DELETE := h.ne (by decide)
  have htab : c ≠ U_TAB := h.ne (by decide)
  have hequal : c ≠ U_KP_EQUAL := h.ne (by decide)
  obtain ⟨-, hc⟩ := h
  have hnav : navTable.lookup c = none := navTable_lookup_eq_none (by omega)
  have hletter : letterRow c = none := letterRow_eq_none (by omega)
  have hdig : digPunctRow c = none := digPunctRow_eq_none (by omega)
  have hpad : keypadRow c = none := keypadRow_eq_none (by omega) hequal
  have hfkey : fkeyRow c = none := fkeyRow_eq_none (by omega)
  simp only [keyCode, hnav, if_neg hdel, htab, false_and, if_false, hletter, hdig, hpad, hfkey]

/-- What a newly pressed key that is no lock key appends, given its entry (R150). -/
theorem keyAppends_of_keyCode {c : Byte} {s : State} {m : Byte} {e : Option Byte}
    (hkey : 0x01 < c.toNat ∧ c.toNat ≠ 0x39 ∧ c.toNat ≠ 0x47 ∧ c.toNat ≠ 0x53)
    (hup : keyIn s.keymap c = false)
    (hcode : keyCode s.cfg s.numLock s.capsLock (shiftPressed m) c = e) (r : Byte) :
    KeyAppends m r c s e.toList := by
  have ne {d : Byte} (hd : d.toNat ≤ 0x01 ∨ d.toNat = 0x39 ∨ d.toNat = 0x47 ∨ d.toNat = 0x53) :
      c ≠ d := by
    rintro rfl
    omega
  exact hcode ▸ keyAppends_of_not_lock (ne (by decide)) (ne (by decide))
    (isLockKey_eq_false (ne (by decide)) (ne (by decide)) (ne (by decide))) hup m r

/-! ### Digits, Tab, navigation keys and delete -/

/-- Settles O31: the key's row is its own, its column that of shift, and escape is gated by its flag. -/
theorem digitOrPunctuationKeyEmitsTheShiftColumn :
    Obligations.DigitOrPunctuationKeyEmitsTheShiftColumn := by
  intro m r k s hup htab
  have hval : (BitVec.ofNat 8 (0x1E + k.val)).toNat = 0x1E + k.val := by
    rw [BitVec.toNat_ofNat]; omega
  have hesc : BitVec.ofNat 8 (0x1E + k.val) = U_ESC ↔ k.val = 0x0B := by
    rw [BitVec.toNat_eq, hval]; simp; omega
  have hnotab : ¬(BitVec.ofNat 8 (0x1E + k.val) = U_TAB ∧ shiftPressed m = true) := by
    rintro ⟨hc, hshift⟩
    rw [BitVec.toNat_eq, hval] at hc
    have hk : k.val = 0x0D := by simp at hc; omega
    exact Bool.false_ne_true ((htab hk).symm.trans hshift)
  have hcode := keyCode_of_digPunctRow (digPunctRow_ofNat k) (by omega) hnotab s.cfg
    s.numLock s.capsLock
  have happ := keyAppends_of_keyCode (by omega) hup hcode r
  simp only [digPunct, hesc] at happ
  by_cases hgate : k.val = 0x0B ∧ s.cfg.enabled .esc = false
  · rw [if_pos hgate] at happ ⊢
    exact happ
  · rw [if_neg hgate] at happ ⊢
    exact happ

/-- Settles O32: shifted Tab comes before the digits and punctuation (R152). -/
theorem shiftedTabEmitsTheShiftTabCode : Obligations.ShiftedTabEmitsTheShiftTabCode := by
  intro m r s hup hshift
  have hcode : keyCode s.cfg s.numLock s.capsLock (shiftPressed m) U_TAB =
      some (s.cfg.xcode .shiftTab) := by
    rw [show shiftPressed m = true from hshift]; rfl
  exact keyAppends_of_keyCode (by decide) hup hcode r

/-- Settles O33: each row of the table is a row of NAV, which routing reads first. -/
theorem navigationKeyEmitsItsCodeIfEnabled : Obligations.NavigationKeyEmitsItsCodeIfEnabled := by
  intro m r c key flag s hmem hup
  have hrow : ∀ p ∈ navTable, navTable.lookup p.1 = some p.2 ∧ 0x01 < p.1.toNat ∧
      p.1.toNat ≠ 0x39 ∧ p.1.toNat ≠ 0x47 ∧ p.1.toNat ≠ 0x53 := by decide
  obtain ⟨hlookup, hkey⟩ := hrow _ hmem
  have hcode : keyCode s.cfg s.numLock s.capsLock (shiftPressed m) c = navKey s.cfg key flag := by
    simp only [keyCode, hlookup]
  have happ := keyAppends_of_keyCode hkey hup hcode r
  rw [navKey] at happ
  split_ifs at happ ⊢ <;> exact happ

/-- Settles O34: delete is a category of its own, which reads no flag. -/
theorem deleteKeyEmitsRegardlessOfFlags : Obligations.DeleteKeyEmitsRegardlessOfFlags := by
  intro m r s hup
  have hcode : keyCode s.cfg s.numLock s.capsLock (shiftPressed m) U_DELETE = some s.cfg.pDel := rfl
  exact keyAppends_of_keyCode (by decide) hup hcode r

/-! ### Keypad -/

/-- A newly pressed keypad key appends its entry of the keypad rule (R161). -/
theorem keyAppends_of_keypadRow {c : Byte} {row : Fin 17} {s : State} (h : keypadRow c = some row)
    (hrange : 0x54 ≤ c.toNat ∧ c.toNat ≤ 0x67) (hup : keyIn s.keymap c = false) (m r : Byte) :
    KeyAppends m r c s (keypad s.cfg s.numLock c row).toList :=
  keyAppends_of_keyCode (by omega) hup (keyCode_of_keypadRow h hrange s.cfg _ _ _) r

theorem keypad_of_disabled {cfg : Config} (h : cfg.enabled .keypad = false) (num : Bool) (c : Byte)
    (row : Fin 17) : keypad cfg num c row = none := by
  rw [keypad, if_pos h]

/-- With num-lock on, and for enter, equal and 5 in any case, the key's own code (R161). -/
theorem keypad_of_own {cfg : Config} {num : Bool} {c : Byte} (h : cfg.enabled .keypad = true)
    (hown : num = true ∨ c = U_KP_ENTER ∨ c = U_KP_EQUAL ∨ c = U_KP_5) (row : Fin 17) :
    keypad cfg num c row = some cfg.pKeypad[row] := by
  rw [keypad, if_neg (by simp [h])]
  split_ifs with hkey hnum
  · rfl
  · rfl
  · exact absurd (hown.resolve_left hnum) hkey

section numLockOff

variable {cfg : Config} {c : Byte} (hen : cfg.enabled .keypad = true)
  (hkey : ¬(c = U_KP_ENTER ∨ c = U_KP_EQUAL ∨ c = U_KP_5)) (row : Fin 17)
include hen hkey

/-- With num-lock off a digit but 5 is its navigation key (R162). -/
theorem keypad_of_navigation {key : XKey} {flag : Feature}
    (hnav : kpNavTable.lookup c = some (some (key, flag))) :
    keypad cfg false c row = navKey cfg key flag := by
  rw [keypad, if_neg (by simp [hen]), if_neg hkey, if_neg Bool.false_ne_true, hnav]

/-- With num-lock off the decimal point is delete (R162). -/
theorem keypad_of_delete (hnav : kpNavTable.lookup c = some none) :
    keypad cfg false c row = some cfg.pDel := by
  rw [keypad, if_neg (by simp [hen]), if_neg hkey, if_neg Bool.false_ne_true, hnav]

/-- With num-lock off an operator appends its own code under the ASCII reading alone (R161). -/
theorem keypad_of_operator (hnav : kpNavTable.lookup c = none) :
    keypad cfg false c row = if cfg.pKpOpsNlOff = .ascii then some cfg.pKeypad[row] else none := by
  rw [keypad, if_neg (by simp [hen]), if_neg hkey, if_neg Bool.false_ne_true, hnav]
  cases cfg.pKpOpsNlOff <;> rfl

end numLockOff

theorem keypadCode_range :
    ∀ k : Fin 17, 0x54 ≤ (keypadCode k).toNat ∧ (keypadCode k).toNat ≤ 0x67 := by decide

/-- Settles O35: the key's row is its own, and the keypad rule gives nothing while disabled and the row's
code else. -/
theorem keypadKeyEmitsItsCodeWithNumLockOn : Obligations.KeypadKeyEmitsItsCodeWithNumLockOn := by
  intro m r k s c hup
  have happ : KeyAppends m r c s (keypad s.cfg s.numLock c k).toList :=
    keyAppends_of_keypadRow (keypadRow_keypadCode k) (keypadCode_range k) hup m r
  refine ⟨fun hdis => ?_, fun hen hown => ?_⟩
  · rwa [keypad_of_disabled hdis] at happ
  · rwa [keypad_of_own hen hown] at happ

/-- Settles O36: none of these keys is enter, equal or 5, and KPNAV has the digits' keys, the decimal
point's delete and no operator. -/
theorem keypadKeyEmitsItsNavigationCodeWithNumLockOff :
    Obligations.KeypadKeyEmitsItsNavigationCodeWithNumLockOff := by
  intro m r c s hnum hen hup
  have off {row : Fin 17} (hrow : keypadRow c = some row)
      (hrange : 0x54 ≤ c.toNat ∧ c.toNat ≤ 0x67) :
      KeyAppends m r c s (keypad s.cfg false c row).toList :=
    hnum ▸ keyAppends_of_keypadRow hrow hrange hup m r
  refine ⟨fun key flag hmem => ?_, ?_, ?_⟩
  · have hdigit : ∀ p : Byte × XKey × Feature, p ∈ ([(0x62, .insert, .insert), (0x59, .endKey, .endKey),
        (0x5A, .down, .arrows), (0x5B, .pageDown, .pageDown), (0x5C, .left, .arrows),
        (0x5E, .right, .arrows), (0x5F, .home, .home), (0x60, .up, .arrows),
        (0x61, .pageUp, .pageUp)] : List (Byte × XKey × Feature)) →
        kpNavTable.lookup p.1 = some (some p.2) ∧
          (0x54 ≤ p.1.toNat ∧ p.1.toNat ≤ 0x67) ∧ (keypadRow p.1).isSome ∧
          ¬(p.1 = U_KP_ENTER ∨ p.1 = U_KP_EQUAL ∨ p.1 = U_KP_5) := by decide
    obtain ⟨hnav, hrange, hrow, hkey⟩ := hdigit _ hmem
    obtain ⟨row, hrow⟩ := Option.isSome_iff_exists.mp hrow
    have happ := off hrow hrange
    rw [keypad_of_navigation hen hkey row hnav, navKey] at happ
    split_ifs at happ ⊢ <;> exact happ
  · rintro rfl
    have happ := off (row := 15) (by decide) (by decide)
    rwa [keypad_of_delete hen (by decide) _ (by decide)] at happ
  · rintro k rfl
    have hop : ∀ k : Fin 4, keypadRow (BitVec.ofNat 8 (0x54 + k.val)) = some ⟨k.val, by omega⟩ ∧
        (0x54 ≤ (BitVec.ofNat 8 (0x54 + k.val)).toNat ∧
          (BitVec.ofNat 8 (0x54 + k.val)).toNat ≤ 0x67) ∧
        kpNavTable.lookup (BitVec.ofNat 8 (0x54 + k.val)) = none ∧
        ¬(BitVec.ofNat 8 (0x54 + k.val) = U_KP_ENTER ∨ BitVec.ofNat 8 (0x54 + k.val) = U_KP_EQUAL ∨
          BitVec.ofNat 8 (0x54 + k.val) = U_KP_5) := by decide
    obtain ⟨hrow, hrange, hnav, hkey⟩ := hop k
    have happ := off hrow hrange
    rw [keypad_of_operator hen hkey _ hnav] at happ
    cases hops : s.cfg.pKpOpsNlOff <;> rw [hops] at happ <;> exact happ

/-! ### Function keys and unmapped codes -/

/-- Settles O37: the key's row is its own. -/
theorem functionKeyEmitsItsTableCodeIfEnabled : Obligations.FunctionKeyEmitsItsTableCodeIfEnabled := by
  intro m r n s hup
  have hval : (BitVec.ofNat 8 (0x3A + n.val)).toNat = 0x3A + n.val := by
    rw [BitVec.toNat_ofNat]; omega
  have hcode := keyCode_of_fkeyRow (fkeyRow_ofNat n) (by omega) s.cfg s.numLock s.capsLock
    (shiftPressed m)
  have happ := keyAppends_of_keyCode (by omega) hup hcode r
  rw [fKey] at happ
  split_ifs at happ ⊢ <;> exact happ

/-- Settles O38: the code is in no category, and a processed code is in KEYMAP after a report under
SCAN_SET. -/
theorem unmappedKeyEmitsNothing : Obligations.UnmappedKeyEmitsNothing := by
  intro m r c s hc hup
  have hun : Unmapped c := by
    rcases hc with rfl | rfl | rfl | rfl | rfl | rfl | hc
    on_goal 7 => exact ⟨by omega, by omega⟩
    all_goals decide
  have h0 : c ≠ U_EMPTY := hun.ne (by decide)
  have h1 : c ≠ U_ROLLOVER := hun.ne (by decide)
  have hkey : 0x01 < c.toNat ∧ c.toNat ≠ 0x39 ∧ c.toNat ≠ 0x47 ∧ c.toNat ≠ 0x53 := by
    obtain ⟨hlo, hc⟩ := hun
    omega
  refine ⟨keyAppends_of_keyCode hkey hup (keyCode_of_unmapped hun _ _ _ _) r,
    fun hmode t ht => ?_⟩
  rw [oneKey, exec_kbdReport_slots m r rfl] at ht
  cases ht
  refine keyIn_kbdAccepted_of_processed hmode (isRollover_oneKey h0 h1 s.cfg) ?_
  rw [processed_oneKey h0]
  exact List.mem_singleton_self c

/-! ### Lock keys -/

/-- Settles O39: the key is routed after the modifier pass, and LockKey appends nothing. -/
theorem lockKeyTogglesItsBitIfEnabled : Obligations.LockKeyTogglesItsBitIfEnabled := by
  intro m r c s hc hup
  obtain ⟨hlock, h0, h1⟩ : isLockKey c = true ∧ c ≠ U_EMPTY ∧ c ≠ U_ROLLOVER := by
    rcases hc with rfl | rfl | rfl <;> decide
  obtain ⟨k, hexec⟩ := exec_oneKey h0 h1 hup m r
  rw [ledUpdate_spec] at hexec
  have bit (b : LockBit) : b.get (route c (shiftPressed m) (modifierPass m s)) =
      (b.get s ^^ (c == b.key && s.cfg.enabled b.flag)) := by
    rw [route_lock, modifierPass_lock, modifierPass_cfg]
  refine ⟨_, hexec, bit .num, bit .caps, bit .scroll, ?_⟩
  show (route c (shiftPressed m) (modifierPass m s)).obuf = _
  rw [route_of_lock hlock, (lockKey_frame c _).2.obuf, (modifierPass_emits m s).obuf]
  rfl

/-- Slots without 0x01 make no rollover report, by either reading (R120). -/
theorem isRollover_of_not_mem {slots : List Byte} (h : U_ROLLOVER ∉ slots) (cfg : Config) :
    isRollover cfg slots = false := by
  unfold isRollover
  cases cfg.pPhantomScope with
  | allSlots => exact Bool.eq_false_iff.mpr fun hc => h (List.contains_iff_mem.mp hc)
  | untilZero =>
    exact Bool.eq_false_iff.mpr fun hc => h (mem_slots_of_mem_processed (List.contains_iff_mem.mp hc))

/-- Two different keys, both up, in slots 0 and 1 rise in that order (R125). -/
theorem risingKeys_twoKeys {keymap : KeySet} {c d : Byte} (hc : c ≠ U_EMPTY) (hd : d ≠ U_EMPTY)
    (hne : c ≠ d) (hcup : keyIn keymap c = false) (hdup : keyIn keymap d = false) (cfg : Config) :
    risingKeys cfg keymap [c, d, 0, 0, 0, 0] = [c, d] := by
  have hsecond {down : KeySet} (hup : keyIn down d = false) (mode : KbCommit) :
      risingAmong mode down [d] = [d] := by
    rw [risingAmong_cons_fresh hup]; cases mode <;> rfl
  rw [risingKeys_eq, processed_cons hc, processed_cons hd, processed_zero, risingAmong_cons_fresh hcup,
    hsecond]
  cases cfg.pKbCommit with
  | scanSet => rw [keyIn_keySet, hdup]; exact beq_eq_false_iff_ne.mpr hne
  | literalAnd => exact hdup

/-- Routing enabled caps-lock and then a letter appends the letter by the flipped bit (R172). -/
theorem routedCodes_capsLock_letter {c : Byte} {row : Fin 26} {s : State} (hrow : letterRow c = some row)
    (hen : s.cfg.enabled .capsLock = true) (shift : Bool) :
    routedCodes shift [U_CAPSLOCK, c] s = [letter s.cfg (!s.capsLock) shift row] := by
  have hcaps : (route U_CAPSLOCK shift s).capsLock = !s.capsLock := by
    rw [route_capsLock, hen]; simp
  rw [routedCodes, routedCodes, routedCodes, isLockKey_of_letterRow hrow, keyCode_of_letterRow hrow,
    (route_frame _ _ _).cfg, hcaps]
  rfl

/-- Settles O40: both keys rise, caps-lock flips its bit, and the letter is routed with the flipped bit. -/
theorem laterSlotSeesTheLockAnEarlierOneToggled : Obligations.LaterSlotSeesTheLockAnEarlierOneToggled := by
  intro m r k s hupCaps hupLetter hen
  have hrow : letterRow (BitVec.ofNat 8 (0x04 + k.val)) = some k :=
    letterRow_eq_some.mpr (by rw [BitVec.toNat_ofNat]; omega)
  generalize BitVec.ofNat 8 (0x04 + k.val) = c at hupLetter hrow
  have h0 : c ≠ U_EMPTY := ne_of_letterRow hrow (by decide)
  have h1 : U_ROLLOVER ≠ c := (ne_of_letterRow hrow (by decide)).symm
  have hne : U_CAPSLOCK ≠ c := (ne_of_letterRow hrow (by decide)).symm
  have hroll : isRollover s.cfg [U_CAPSLOCK, c, 0, 0, 0, 0] = false :=
    isRollover_of_not_mem (by simpa using h1) s.cfg
  have hrising := risingKeys_twoKeys (by decide) h0 hne hupCaps hupLetter s.cfg
  have hcount : [U_CAPSLOCK, c].count LockBit.caps.key = 1 := by
    rw [LockBit.key, List.count_cons_self, List.count_eq_zero.mpr (by simpa using hne)]
  have hemits := kbdAccepted_emits_of_scan (r := ⟨m, r, [U_CAPSLOCK, c, 0, 0, 0, 0]⟩) rfl hroll
  have hbit := kbdAccepted_lock ⟨m, r, [U_CAPSLOCK, c, 0, 0, 0, 0]⟩ s .caps
  rw [hrising, routedCodes_capsLock_letter hrow hen] at hemits
  rw [hrising, hroll, hcount, LockBit.flag, hen] at hbit
  exact ⟨_, exec_kbdReport_slots m r rfl s, hbit.trans (Bool.xor_true _), hemits.obuf⟩

end Sys2Proof.Machine

/-! Mouse reports as claims (spec/42_mouse.md): motion, clamp, publish and frame, and the button bits that
are not observable. -/

namespace Sys2Proof.Machine

open Sys2Proof

/-! ### Motion -/

/-- The clamp as one number (R205). -/
theorem clampMove_toNat (p lim : Coord) (d : Int) :
    ((clampMove p d lim).toNat : Int) =
      if 0 < d then min (p.toNat + d) (lim.toNat : Int) else max (p.toNat + d) 0 := by
  split_ifs with h
  · exact clampMove_pos h
  · exact clampMove_nonpos (by omega)

variable (f : MsFields) (s : State)

/-- Horizontal motion, by the signed reading of dx (R205). -/
theorem moveMouse_mx_toNat :
    ((moveMouse f s).mx.toNat : Int) =
      if 0 < f.dx.toInt then min (s.mx.toNat + f.dx.toInt) (s.cfg.pW.toNat : Int)
      else max (s.mx.toNat + f.dx.toInt) 0 := by
  rw [moveMouse_mx, clampMove_toNat, sext8_eq]

/-- Vertical motion, by the negated signed reading of dy (R204, R206). -/
theorem moveMouse_my_toNat :
    ((moveMouse f s).my.toNat : Int) =
      if f.dy.toInt < 0 then min (s.my.toNat - f.dy.toInt) (s.cfg.pH.toNat : Int)
      else max (s.my.toNat - f.dy.toInt) 0 := by
  simp only [moveMouse_my, clampMove_toNat, sext8_eq, Left.neg_pos_iff, ← Int.sub_eq_add_neg]

/-- Settles O41: the report's fields have no scroll delta, so the phase stays. -/
theorem threeByteMouseReportMovesAndPublishes : Obligations.ThreeByteMouseReportMovesAndPublishes := by
  intro b dx dy s
  exact ⟨_, exec_msReport_of_fields (r := ⟨b, dx, dy, none⟩) rfl s, moveMouse_mx_toNat _ s,
    moveMouse_my_toNat _ s, rfl, rfl, rfl, rfl, rfl, rfl, rfl⟩

/-- Settles O42: the report's fields leave out the reserved bytes, and its scroll delta moves the phase. -/
theorem sixByteMouseReportMovesScrollsAndPublishes :
    Obligations.SixByteMouseReportMovesScrollsAndPublishes := by
  intro b dx r1 dy r2 sc s
  refine ⟨_, exec_msReport_of_fields (r := ⟨b, dx, dy, some sc⟩) rfl s, moveMouse_mx_toNat _ s,
    moveMouse_my_toNat _ s, ?_, rfl, rfl, rfl, rfl, rfl, rfl⟩
  rw [← sext8_eq]
  exact scrollBy_toNat _ _

/-- Settles O43: the clamp reads the sign of dx alone. -/
theorem horizontalMotionIsClampedInItsDirection : Obligations.HorizontalMotionIsClampedInItsDirection := by
  intro report f s hf
  refine ⟨_, exec_msReport_of_fields hf s, fun hpos => ?_, fun hneg => ?_⟩
  · exact (moveMouse_mx_toNat f s).trans (if_pos hpos)
  · exact (moveMouse_mx_toNat f s).trans (if_neg (by omega))

/-- Settles O45: on the screen, a motion right or down cannot go below 0, and one left or up not beyond
the screen. -/
theorem oneSidedClampIsTheTwoSidedClamp : Obligations.OneSidedClampIsTheTwoSidedClamp := by
  intro report f s t hinv hf h
  rw [exec_msReport_of_fields hf] at h
  cases h
  have hmx := hinv.mx_le
  have hmy := hinv.my_le
  rw [State.publish_mx, State.publish_my, moveMouse_mx_toNat, moveMouse_my_toNat]
  constructor <;> split_ifs <;> omega

end Sys2Proof.Machine

/-! What a command reads and writes of each device's elements, as claims: owners, isolation, commutation,
and the button bits nothing shows (spec/10_state.md R25, spec/20_memory.md R67, R71, spec/42_mouse.md
R207). -/

namespace Sys2Proof.Machine

open Sys2Proof

/-! ### Owners -/

/-- A command that is no keyboard report leaves the keyboard's elements but KB_UPDATED (R25). -/
theorem exec_keyboard_of_not_kbdReport {i : Instr} {s t : State} (hi : ∀ report, i ≠ .kbdReport report)
    (h : exec i s = .next t) : { t.keyboard with kbUpdated := s.kbUpdated } = s.keyboard := by
  have of_mouse (hm : isMouseCommand i = true) :
      { t.keyboard with kbUpdated := s.kbUpdated } = s.keyboard := by
    rw [exec_keyboard_of_mouse hm h]; rfl
  cases i with
  | kbdReport report => exact absurd rfl (hi report)
  | msReport report => exact of_mouse rfl
  | kbdPoll => cases h; rfl
  | kbdRead => cases h; rfl
  | msPoll => exact of_mouse rfl
  | msRead => exact of_mouse rfl

/-- A command that is neither a keyboard report nor KBD_POLL leaves all of the keyboard's elements. -/
theorem exec_keyboard_of_not_owner {i : Instr} {s t : State} (hi : ∀ report, i ≠ .kbdReport report)
    (hpoll : i ≠ .kbdPoll) (h : exec i s = .next t) : t.keyboard = s.keyboard := by
  cases i with
  | kbdReport report => exact absurd rfl (hi report)
  | msReport report => exact exec_keyboard_of_mouse rfl h
  | kbdPoll => exact absurd rfl hpoll
  | kbdRead => cases h; rfl
  | msPoll => exact exec_keyboard_of_mouse rfl h
  | msRead => exact exec_keyboard_of_mouse rfl h

/-- COPY is MS_POLL's alone (R254). -/
theorem exec_copy_of_not_msPoll {i : Instr} {s t : State} (hi : i ≠ .msPoll) (h : exec i s = .next t) :
    t.copy = s.copy := by
  have of_keyboard (hk : isMouseCommand i = false) : t.copy = s.copy :=
    congrArg MouseView.copy (exec_mouse_of_keyboard hk h)
  cases i with
  | kbdReport report => exact of_keyboard rfl
  | msReport report => rcases exec_msReport_cases h with ⟨-, rfl⟩ | ⟨r, -, rfl⟩ <;> rfl
  | kbdPoll => exact of_keyboard rfl
  | kbdRead => exact of_keyboard rfl
  | msPoll => exact absurd rfl hi
  | msRead => cases h; rfl

/-- Settles O56: one law per row of R25's table. -/
theorem onlyItsOwnersWriteEachElement : Obligations.OnlyItsOwnersWriteEachElement := fun _ _ _ h =>
  ⟨fun hi => exec_keyboard_of_not_kbdReport hi h,
    fun hi hpoll => congrArg KeyboardView.kbUpdated (exec_keyboard_of_not_owner hi hpoll h),
    fun hi => exec_mouse_of_not_msReport hi h, fun hi => exec_copy_of_not_msPoll hi h, exec_outside h⟩

/-! ### A command's own effect depends on its own device's elements -/

/-- The two states give the keyboard's commands the same elements and the same configuration. -/
structure KeyboardAgree (s s' : State) : Prop where
  keyboard : s.keyboard = s'.keyboard
  cfg : s.cfg = s'.cfg

/-- The two states give the mouse's commands the same elements and the same configuration. -/
structure MouseAgree (s s' : State) : Prop where
  mouse : s.mouse = s'.mouse
  cfg : s.cfg = s'.cfg

theorem KeyboardAgree.lock {s s' : State} (h : KeyboardAgree s s') (b : LockBit) : b.get s = b.get s' := by
  cases b with
  | num => exact congrArg KeyboardView.numLock h.keyboard
  | caps => exact congrArg KeyboardView.capsLock h.keyboard
  | scroll => exact congrArg KeyboardView.scrollLock h.keyboard

theorem reportCodes_congr {s s' : State} (h : KeyboardAgree s s') (r : KbdFields) :
    reportCodes r s = reportCodes r s' := by
  have hmap : s.keymap = s'.keymap := congrArg KeyboardView.keymap h.keyboard
  have hlatch : s.modlatch = s'.modlatch := congrArg KeyboardView.modlatch h.keyboard
  have hroutes := routedCodes_congr (shiftPressed r.mods) (risingKeys s'.cfg s'.keymap r.slots) h.cfg
    (h.lock .num) (h.lock .caps)
  simp only [reportCodes, modifierCodes, risingModifiers, h.cfg, hmap, hlatch, hroutes]

/-- An accepted report leaves the same keyboard's elements in both states. -/
theorem kbdAccepted_keyboard_congr {s s' : State} (h : KeyboardAgree s s') {r : KbdFields}
    (hlen : r.slots.length = 6) : (kbdAccepted r s).keyboard = (kbdAccepted r s').keyboard := by
  have hmap : s.keymap = s'.keymap := congrArg KeyboardView.keymap h.keyboard
  have hobuf : s.obuf = s'.obuf := congrArg KeyboardView.obuf h.keyboard
  have hupd : s.kbUpdated = s'.kbUpdated := congrArg KeyboardView.kbUpdated h.keyboard
  have hlatch : s.modlatch = s'.modlatch := congrArg KeyboardView.modlatch h.keyboard
  have hemits := kbdAccepted_emits (s := s) hlen
  have hemits' := kbdAccepted_emits (s := s') hlen
  rw [reportCodes_congr h] at hemits
  have hlocks (b : LockBit) : b.get (kbdAccepted r s) = b.get (kbdAccepted r s') := by
    rw [kbdAccepted_lock, kbdAccepted_lock, h.lock, h.cfg, hmap]
  have hlatches : (kbdAccepted r s).modlatch = (kbdAccepted r s').modlatch :=
    ModLatch.ext_get fun j => by
      rw [kbdAccepted_latch, kbdAccepted_latch, latchAfter, latchAfter, h.cfg, hlatch]
  have hmaps : (kbdAccepted r s).keymap = (kbdAccepted r s').keymap :=
    keySet_ext fun c => by rw [kbdAccepted_keyIn, kbdAccepted_keyIn, h.cfg, hmap]
  have hnum : (kbdAccepted r s).numLock = (kbdAccepted r s').numLock := hlocks .num
  have hcaps : (kbdAccepted r s).capsLock = (kbdAccepted r s').capsLock := hlocks .caps
  have hscroll : (kbdAccepted r s).scrollLock = (kbdAccepted r s').scrollLock := hlocks .scroll
  rw [State.keyboard, State.keyboard, hmaps, hlatches, hnum, hcaps, hscroll, kbdAccepted_ledLast,
    kbdAccepted_ledLast, led_congr hlocks, hemits.obuf, hemits'.obuf, hemits.kbUpdated, hemits'.kbUpdated,
    hobuf, hupd]

/-- A keyboard's command leaves the same keyboard's elements in both states, and outputs the same. -/
theorem exec_keyboard_congr {i : Instr} {s s' t t' : State} (hi : isMouseCommand i = false)
    (hag : KeyboardAgree s s') (h : exec i s = .next t) (h' : exec i s' = .next t') :
    t.keyboard = t'.keyboard ∧ ∃ events, t.out = s.out ++ events ∧ t'.out = s'.out ++ events := by
  have hupd : s.kbUpdated = s'.kbUpdated := congrArg KeyboardView.kbUpdated hag.keyboard
  have hobuf : s.obuf = s'.obuf := congrArg KeyboardView.obuf hag.keyboard
  cases i with
  | kbdReport report =>
    cases hf : kbdFields report with
    | none =>
      have hlen : report.length ≠ 8 := fun hl => by
        simpa [hf] using (kbdFields_isSome report).mpr hl
      rw [exec_kbdReport_of_length_ne hlen] at h h'
      cases h; cases h'
      exact ⟨hag.keyboard, [], (List.append_nil _).symm, (List.append_nil _).symm⟩
    | some r =>
      obtain ⟨-, hlen⟩ := kbdFields_eq_some hf
      rw [exec_kbdReport_accepted hf] at h h'
      cases h; cases h'
      have hkb := kbdAccepted_keyboard_congr hag hlen
      have hlast : s.ledLast = s'.ledLast := congrArg KeyboardView.ledLast hag.keyboard
      have hled : (kbdAccepted r s).led = (kbdAccepted r s').led :=
        led_congr (KeyboardAgree.lock ⟨hkb, by rw [kbdAccepted_cfg, kbdAccepted_cfg, hag.cfg]⟩)
      exact ⟨hkb, _, kbdAccepted_out r s, by rw [kbdAccepted_out, hled, hlast]⟩
  | kbdPoll =>
    cases h; cases h'
    exact ⟨congrArg (fun v => { v with kbUpdated := false }) hag.keyboard, _, rfl, by rw [hupd]; rfl⟩
  | kbdRead => cases h; cases h'; exact ⟨hag.keyboard, _, rfl, by rw [hobuf]; rfl⟩
  | msReport report => exact absurd hi nofun
  | msPoll => exact absurd hi nofun
  | msRead => exact absurd hi nofun

/-- A mouse's command leaves the same mouse's elements in both states. -/
theorem exec_mouse_congr {i : Instr} {s s' t t' : State} (hi : isMouseCommand i = true)
    (hag : MouseAgree s s') (h : exec i s = .next t) (h' : exec i s' = .next t') :
    t.mouse = t'.mouse := by
  have hmx : s.mx = s'.mx := congrArg MouseView.mx hag.mouse
  have hmy : s.my = s'.my := congrArg MouseView.my hag.mouse
  have hphase : s.phase = s'.phase := congrArg MouseView.phase hag.mouse
  have hcopy : s.copy = s'.copy := congrArg MouseView.copy hag.mouse
  cases i with
  | msReport report =>
    cases hf : msFields report with
    | none =>
      simp only [exec, execMsReport, hf] at h h'
      cases h; cases h'
      exact hag.mouse
    | some r =>
      rw [exec_msReport_of_fields hf] at h h'
      cases h; cases h'
      simp only [State.mouse, State.publish_mx, State.publish_my, State.publish_phase, State.publish_btn,
        State.publish_snap, State.publish_copy, moveMouse_mx, moveMouse_my, moveMouse_phase, moveMouse_btn,
        moveMouse_copy, hmx, hmy, hphase, hcopy, hag.cfg]
  | msPoll => cases h; cases h'; exact congrArg (fun v => { v with copy := v.snap }) hag.mouse
  | msRead => cases h; cases h'; exact hag.mouse
  | kbdReport report => exact absurd hi nofun
  | kbdPoll => exact absurd hi nofun
  | kbdRead => exact absurd hi nofun

/-! ### Isolation -/

/-- If the commands `p` selects keep two states in agreement, and the others keep each state in agreement
with itself, a run and its selected commands alone end in agreement. -/
theorem execAll_filter_agree {Agree : State → State → Prop} {p : Instr → Bool}
    (hkeep : ∀ {i s s' t t'}, p i = true → Agree s s' → exec i s = .next t → exec i s' = .next t' →
      Agree t t')
    (hskip : ∀ {i s s' t}, p i = false → Agree s s' → exec i s = .next t → Agree t s')
    (cs : List Instr) {s s' t : State} (hag : Agree s s') (h : execAll cs s = .next t) :
    ∃ u, execAll (cs.filter p) s' = .next u ∧ Agree t u := by
  induction cs generalizing s s' with
  | nil => cases h; exact ⟨s', rfl, hag⟩
  | cons i cs ih =>
    obtain ⟨v, hv, hrest⟩ := execAll_cons h
    cases hp : p i with
    | true =>
      obtain ⟨v', hv'⟩ := exec_next i s'
      obtain ⟨u, hu, hagu⟩ := ih (hkeep hp hag hv hv') hrest
      exact ⟨u, by rw [List.filter_cons_of_pos hp, execAll_cons_of_next hv', hu], hagu⟩
    | false =>
      rw [List.filter_cons_of_neg (by simp [hp])]
      exact ih (hskip hp hag hv) hrest

theorem exec_cfg {i : Instr} {s t : State} (h : exec i s = .next t) : t.cfg = s.cfg :=
  congrArg OutsideView.cfg (exec_outside h)

/-- Settles O58: a command of the one device keeps agreement on its elements, and a command of the other
leaves them. -/
theorem keyboardAndMouseDoNotAffectEachOther : Obligations.KeyboardAndMouseDoNotAffectEachOther := by
  intro cs s t h
  constructor
  · obtain ⟨u, hu, hag⟩ := execAll_filter_agree (Agree := MouseAgree) (p := isMouseCommand)
      (fun hp hag he he' => ⟨exec_mouse_congr hp hag he he', by rw [exec_cfg he, exec_cfg he', hag.cfg]⟩)
      (fun hp hag he => ⟨(exec_mouse_of_keyboard hp he).trans hag.mouse, (exec_cfg he).trans hag.cfg⟩)
      cs ⟨rfl, rfl⟩ h
    exact ⟨u, hu, hag.mouse.symm⟩
  · obtain ⟨v, hv, hag⟩ := execAll_filter_agree (Agree := KeyboardAgree) (p := fun i => !isMouseCommand i)
      (fun hp hag he he' => ⟨(exec_keyboard_congr (by simpa using hp) hag he he').1,
        by rw [exec_cfg he, exec_cfg he', hag.cfg]⟩)
      (fun hp hag he => ⟨(exec_keyboard_of_mouse (by simpa using hp) he).trans hag.keyboard,
        (exec_cfg he).trans hag.cfg⟩)
      cs ⟨rfl, rfl⟩ h
    exact ⟨v, hv, hag.keyboard.symm⟩

/-! ### Commutation -/

/-- A mouse report outputs nothing. -/
theorem exec_msReport_out {report : List Byte} {s t : State} (h : exec (.msReport report) s = .next t) :
    t.out = s.out := by
  rcases exec_msReport_cases h with ⟨-, rfl⟩ | ⟨r, -, rfl⟩ <;> rfl

/-- Settles O59: in either order each command finds its own device's elements as they were, so the four
views of the two ends are equal. -/
theorem mouseReportCommutesWithKeyboardCommands :
    Obligations.MouseReportCommutesWithKeyboardCommands := by
  intro report i s hi
  obtain ⟨a, ha⟩ := exec_next (.msReport report) s
  obtain ⟨ai, hai⟩ := exec_next i a
  obtain ⟨b, hb⟩ := exec_next i s
  obtain ⟨bm, hbm⟩ := exec_next (.msReport report) b
  rw [execAll_cons_of_next ha, execAll_cons_of_next hai, execAll_cons_of_next hb, execAll_cons_of_next hbm]
  obtain ⟨hkeyboard, events, hout, hout'⟩ :=
    exec_keyboard_congr hi ⟨exec_keyboard_of_mouse rfl ha, exec_cfg ha⟩ hai hb
  have hmouse := exec_mouse_congr rfl ⟨exec_mouse_of_keyboard hi hb, exec_cfg hb⟩ hbm ha
  have heq : ai = bm := State.ext_views (hkeyboard.trans (exec_keyboard_of_mouse rfl hbm).symm)
    ((exec_mouse_of_keyboard hi hai).trans hmouse.symm)
    (by rw [exec_outside hai, exec_outside ha, exec_outside hbm, exec_outside hb])
    (by rw [hout, exec_msReport_out ha, exec_msReport_out hbm, hout'])
  rw [heq]

/-! ### Bits 7:4 of the button byte -/

/-- The two states differ at most in BTN. -/
def SameButBtn (s s' : State) : Prop := s' = { s with btn := s'.btn }

/-- The published buttons are the low button bits (R207, R209). -/
theorem packSnapshot_congr_btn {b b' : Byte} (h : b &&& 0x0F = b' &&& 0x0F) (phase : Phase) (mx my : Coord) :
    packSnapshot b phase mx my = packSnapshot b' phase mx my :=
  congrArg (fun n : Byte => (⟨n ||| (phase.setWidth 8 <<< 4), lo8 mx, hi8 mx, lo8 my, hi8 my⟩ : Snapshot)) h

/-- A mouse report stores BTN and publishes what it stored, so it does not see what BTN was. -/
theorem publish_moveMouse_of_sameButBtn {s s' : State} (h : SameButBtn s s') (f : MsFields) :
    (moveMouse f s').publish = (moveMouse f s).publish := by
  rw [h]; rfl

/-- Two button bytes with one low nibble leave states that differ at most in BTN (R207). -/
theorem sameButBtn_publish_moveMouse {f f' : MsFields} (hb : f.buttons &&& 0x0F = f'.buttons &&& 0x0F)
    (hrest : f' = { f with buttons := f'.buttons }) (s : State) :
    SameButBtn (moveMouse f s).publish (moveMouse f' s).publish := by
  have hsnap := packSnapshot_congr_btn hb (moveMouse f s).phase (moveMouse f s).mx (moveMouse f s).my
  rw [hrest, SameButBtn]
  simp only [State.publish, moveMouse] at hsnap ⊢
  rw [hsnap]

/-- No command shows BTN: executed in two states that differ at most there, it leaves two such states. -/
theorem exec_sameButBtn {i : Instr} {s s' t : State} (hs : SameButBtn s s') (h : exec i s = .next t) :
    ∃ t', exec i s' = .next t' ∧ SameButBtn t t' := by
  cases hi : isMouseCommand i with
  | false =>
    obtain ⟨t', h'⟩ := exec_next i s'
    have hag : KeyboardAgree s' s := by rw [hs]; exact ⟨rfl, rfl⟩
    obtain ⟨hkeyboard, events, hout', hout⟩ := exec_keyboard_congr hi hag h' h
    have hmouse := exec_mouse_of_keyboard hi h'
    have hbtn : t'.btn = s'.btn := congrArg MouseView.btn hmouse
    refine ⟨t', h', State.ext_views hkeyboard ?_ ?_ ?_⟩
    · show t'.mouse = { t.mouse with btn := t'.btn }
      rw [hmouse, hbtn, exec_mouse_of_keyboard hi h]
      exact congrArg State.mouse hs
    · exact (exec_outside h').trans ((congrArg State.outside hs).trans (exec_outside h).symm)
    · exact hout'.trans ((congrArg (·.out ++ events) hs).trans hout.symm)
  | true =>
    cases i with
    | msReport report =>
      rcases exec_msReport_cases h with ⟨hf, rfl⟩ | ⟨f, hf, rfl⟩
      · exact ⟨s', by simp only [exec, execMsReport, hf]; rfl, hs⟩
      · exact ⟨_, exec_msReport_of_fields hf s', by rw [publish_moveMouse_of_sameButBtn hs]; rfl⟩
    | msPoll => cases h; exact ⟨_, rfl, by rw [hs]; rfl⟩
    | msRead => cases h; exact ⟨_, rfl, by rw [hs]; rfl⟩
    | kbdReport report => exact absurd hi nofun
    | kbdPoll => exact absurd hi nofun
    | kbdRead => exact absurd hi nofun

theorem execAll_sameButBtn (cs : List Instr) {s s' t : State} (hs : SameButBtn s s')
    (h : execAll cs s = .next t) : ∃ t', execAll cs s' = .next t' ∧ SameButBtn t t' := by
  induction cs generalizing s s' with
  | nil => cases h; exact ⟨s', rfl, hs⟩
  | cons i cs ih =>
    obtain ⟨u, hu, hrest⟩ := execAll_cons h
    obtain ⟨u', hu', hsu⟩ := exec_sameButBtn hs hu
    obtain ⟨t', ht', hst⟩ := ih hsu hrest
    exact ⟨t', by rw [execAll_cons_of_next hu', ht'], hst⟩

/-- The button byte of a mouse report is a field of its own, in either form (R82, R83). -/
theorem msFields_cons_eq_some {b : Byte} {tail : List Byte} {f : MsFields}
    (h : msFields (b :: tail) = some f) (b' : Byte) :
    f.buttons = b ∧ msFields (b' :: tail) = some { f with buttons := b' } := by
  unfold msFields at h
  split at h
  · rename_i heq; cases heq; cases h; exact ⟨rfl, rfl⟩
  · rename_i heq; cases heq; cases h; exact ⟨rfl, rfl⟩
  · cases h

/-- Two reports that differ in bits 7:4 of the button byte leave states that differ at most in BTN. -/
theorem exec_msReport_sameButBtn {b b' : Byte} {tail : List Byte} {s t t' : State}
    (hb : b &&& 0x0F = b' &&& 0x0F) (h : exec (.msReport (b :: tail)) s = .next t)
    (h' : exec (.msReport (b' :: tail)) s = .next t') : SameButBtn t t' := by
  rcases exec_msReport_cases h with ⟨hf, rfl⟩ | ⟨f, hf, rfl⟩
  · rcases exec_msReport_cases h' with ⟨-, rfl⟩ | ⟨f', hf', -⟩
    · rfl
    · obtain ⟨-, hsome⟩ := msFields_cons_eq_some hf' b
      rw [hf] at hsome
      cases hsome
  · obtain ⟨rfl, hf'⟩ := msFields_cons_eq_some hf b'
    rw [exec_msReport_of_fields hf'] at h'
    cases h'
    exact sameButBtn_publish_moveMouse (f' := { f with buttons := b' }) hb rfl s

/-- Settles O47: the two reports leave states that differ at most in BTN, no command shows it, and an
accepted mouse report stores its own. -/
theorem highButtonBitsAreNotObservable : Obligations.HighButtonBitsAreNotObservable := by
  intro b b' tail s t t' hb h h'
  have hsame := exec_msReport_sameButBtn hb h h'
  refine ⟨hsame, fun cs u hu => ?_, fun f rest u hu hlen => ?_⟩
  · obtain ⟨u', hu', hsu⟩ := execAll_sameButBtn cs hsame hu
    exact ⟨u', hu', hsu, (congrArg State.out hsu).trans rfl⟩
  · obtain ⟨fields, hf⟩ := Option.isSome_iff_exists.mp
      ((msFields_isSome (f :: rest)).mpr (by simpa using hlen))
    rw [exec_msReport_of_fields hf] at hu ⊢
    rw [publish_moveMouse_of_sameButBtn hsame, hu]

end Sys2Proof.Machine

/-! The Output Encoding Buffer and the Change Detector as claims (spec/43_output_buffer.md,
spec/44_change_detector.md), and MS_READ (spec/42_mouse.md R220). -/

namespace Sys2Proof.Machine

open Sys2Proof

/-! ### The buffer -/

/-- Settles O50: the counter, the code and the older history stand one after another, and the cut at the
old length takes the oldest away. -/
theorem appendCountsShiftsAndSetsUpdated : Obligations.AppendCountsShiftsAndSetsUpdated := by
  intro s code hlen
  rw [State.append_obuf]
  obtain ⟨n, x, hist, hbuf⟩ : ∃ n x hist, s.obuf = n :: x :: hist := by
    match hb : s.obuf with
    | [] => simp [hb] at hlen
    | [n] => simp [hb] at hlen
    | n :: x :: hist => exact ⟨n, x, hist, rfl⟩
  refine ⟨obufAppend_length _ _, ?_, ?_, fun k hk hklen => ?_, rfl, rfl⟩
  · rw [hbuf]
    simp [obufAppend, BitVec.toNat_add]
  · rw [hbuf]
    rfl
  · obtain ⟨j, rfl⟩ := Nat.exists_eq_add_of_le' hk
    rw [hbuf] at hklen ⊢
    simp only [List.length_cons] at hklen
    simp only [obufAppend, List.length_cons, List.take_succ_cons, List.getD_eq_getElem?_getD,
      List.getElem?_cons_succ, Nat.add_succ_sub_one]
    rw [List.getElem?_take_of_lt (by omega)]

/-- Settles O51: by the list of codes; each append puts its code before the history and cuts at the same
length. -/
theorem historyHoldsTheLastCodesMostRecentFirst : Obligations.HistoryHoldsTheLastCodesMostRecentFirst := by
  intro n hist codes
  induction codes generalizing n hist with
  | nil => simp
  | cons c cs ih =>
    have hcut : ((c :: hist).take hist.length).length = hist.length := by simp
    have hcount : n + 1 + BitVec.ofNat 8 cs.length = n + BitVec.ofNat 8 (c :: cs).length := by
      rw [List.length_cons, BitVec.ofNat_add, BitVec.add_assoc, BitVec.add_comm 1]
      rfl
    have hhist : (cs.reverse ++ (c :: hist).take hist.length).take hist.length =
        ((c :: cs).reverse ++ hist).take hist.length := by
      rw [List.take_append, List.take_take, Nat.min_eq_left (Nat.sub_le _ _), ← List.take_append,
        List.reverse_cons, List.append_assoc, List.singleton_append]
    rw [obufAppendAll_cons, obufAppend, ih, hcut, hcount, hhist]

/-! ### Reads and polls -/

/-- Settles O48: MS_READ is the response of SNAP. -/
theorem mouseReadReturnsTheSnapshot : Obligations.MouseReadReturnsTheSnapshot := fun _ => rfl

/-- Settles O49: KBD_READ is the response of OBUF, whose length the invariant gives. -/
theorem keyboardReadReturnsTheBuffer : Obligations.KeyboardReadReturnsTheBuffer := fun _ =>
  ⟨rfl, fun h => h.obuf_length⟩

/-- Settles O52: KBD_POLL clears KB_UPDATED and responds with the byte it had. -/
theorem keyboardPollReadsAndClearsUpdated : Obligations.KeyboardPollReadsAndClearsUpdated := fun _ => rfl

/-- The comparison's answer as a byte (R254, R255). -/
theorem boolByte_differs (p q : Snapshot) : boolByte (p.differs q) = if p = q then 0x00 else 0x01 := by
  rw [Snapshot.differs_eq, boolByte]
  by_cases h : p = q <;> simp [h]

/-- Settles O53: the byte-for-byte comparison is inequality. -/
theorem mousePollComparesAndCopies : Obligations.MousePollComparesAndCopies := by
  intro s
  rw [← boolByte_differs]
  rfl

/-! ### Runs between two polls -/

/-- A run without KBD_POLL appends its codes, and sets KB_UPDATED exactly if it has some (R251). -/
theorem execAll_emits {cs : List Instr} {s t : State} (hpoll : .kbdPoll ∉ cs)
    (h : execAll cs s = .next t) : Emits (runCodes cs s) s t := by
  induction cs generalizing s with
  | nil => cases h; exact Emits.nil _
  | cons i cs ih =>
    obtain ⟨hi, hcs⟩ := not_or.mp (mt List.mem_cons.mpr hpoll)
    obtain ⟨u, hu, hrest⟩ := execAll_cons h
    have := (exec_emits (Ne.symm hi) hu).trans (ih hcs hrest)
    rwa [runCodes, hu]

/-- Settles O54: the first poll leaves KB_UPDATED clear, so at the second it tells whether the run's codes
are any. -/
theorem keyboardPollTellsWhetherAnythingWasAppended :
    Obligations.KeyboardPollTellsWhetherAnythingWasAppended := by
  intro cs s s1 t hpoll h hrun
  have hemits := execAll_emits hpoll hrun
  cases h
  have hupd := hemits.kbUpdated
  refine ⟨hemits.obuf, _, keyboardPollReadsAndClearsUpdated t, ?_⟩
  rw [hupd]
  cases runCodes cs _ <;> rfl

/-- A run without MS_POLL leaves COPY (R254). -/
theorem execAll_copy {cs : List Instr} {s t : State} (hpoll : .msPoll ∉ cs)
    (h : execAll cs s = .next t) : t.copy = s.copy := by
  induction cs generalizing s with
  | nil => cases h; rfl
  | cons i cs ih =>
    obtain ⟨hi, hcs⟩ := not_or.mp (mt List.mem_cons.mpr hpoll)
    obtain ⟨u, hu, hrest⟩ := execAll_cons h
    exact (ih hcs hrest).trans (exec_copy_of_not_msPoll (Ne.symm hi) hu)

/-- Settles O55: the first poll copies SNAP, and the run leaves the copy until the second compares. -/
theorem mousePollTellsWhetherTheSnapshotChanged : Obligations.MousePollTellsWhetherTheSnapshotChanged := by
  intro cs s s1 t hpoll h hrun
  have hcopy := execAll_copy hpoll hrun
  cases h
  refine ⟨_, mousePollComparesAndCopies t, ?_⟩
  rw [hcopy]
  rfl

end Sys2Proof.Machine

/-! Weak fairness as a claim (spec/60_exceptions.md R287): the arbiter names a port within a number of
decisions that it fixes alone, and until then every step serves the other port. -/

namespace Sys2Proof.Machine

open Sys2Proof

theorem stepAll_of_next {k : Nat} {s t : State} (h : step s = .next t) :
    stepAll (k + 1) s = stepAll k t := by
  rw [stepAll, h]

theorem stepAll_of_refused {s : State} {r : Refusal} (h : step s = .refused r) :
    stepAll 1 s = .refused r := by
  rw [stepAll, h]

/-- Reset is not asserted now and stays so (R300). -/
def State.resetQuiet (s : State) : Prop := ∀ e ∈ s.resetIn, e = .inactive

theorem State.resetQuiet.resetInactive {s : State} (h : s.resetQuiet) : s.resetInactive := by
  cases hr : s.resetIn with
  | nil => exact .inl hr
  | cons e r =>
    have he : e = .inactive := h e (by rw [hr]; exact List.mem_cons_self)
    exact .inr ⟨r, he ▸ hr⟩

/-- The step that serves the port of a pending command of its own finds that command (R63). -/
theorem fetch_of_served_command {s : State} {i : Instr} {rest : List Byte} (hr : s.resetQuiet)
    (hd : decode (s.portIn i.port) = .ok (i, rest)) (h : Served s i.port) :
    ∃ u, fetch s = .command i u ∧ u.portIn i.port = rest := by
  obtain ⟨r, n, -, hf⟩ := fetch_of_served hr.resetInactive h
  exact ⟨_, hf.trans (serve_of_command (by cases hp : i.port <;> rw [hp] at hd <;> exact hd) rfl),
    State.portIn_setPortIn _ _ _⟩

/-- What is left after the step of a decision for the other port: this port's bytes, a reset input without
pulses, and the next decision. -/
structure Waits (p : Port) (s t : State) : Prop where
  portIn : t.portIn p = s.portIn p
  resetQuiet : t.resetQuiet
  arbCount : t.arbCount = s.arbCount + 1

/-- A port with something to serve begins with a whole command or a reserved opcode. -/
theorem decode_of_portReady {bs : List Byte} (h : portReady bs = true) :
    (∃ i rest, decode bs = .ok (i, rest)) ∨ ∃ op, decode bs = .error (.reservedOpcode op) := by
  match hd : decode bs with
  | .ok (i, rest) => exact .inl ⟨i, rest, rfl⟩
  | .error (.reservedOpcode op) => exact .inr ⟨op, rfl⟩
  | .error .incomplete => simp [portReady, hd] at h

/-- Between two ports with something to serve the step serves the one the arbiter names, and counts the
decision. -/
theorem fetch_of_both {s : State} {p : Port} (hr : s.resetQuiet) (hp : portReady (s.portIn p) = true)
    (ho : portReady (s.portIn (otherPort p)) = true) :
    ∃ r, (∀ e ∈ r, e = .inactive) ∧
      fetch s = serve (arbiter s.arbCount) { s with resetIn := r, arbCount := s.arbCount + 1 } := by
  obtain ⟨r, hsub, hf⟩ := fetch_of_resetInactive hr.resetInactive
  refine ⟨r, fun e he => hr e (hsub e he), ?_⟩
  rw [hf, arbitrate, choosePort_of_both (p := p) (by simpa using hp) (by simpa using ho)]

/-- A step that decides for the other port is refused, or leaves this port waiting (R67, R287). -/
theorem step_of_other_chosen {s : State} {p : Port} (hr : s.resetQuiet)
    (hp : portReady (s.portIn p) = true) (ho : portReady (s.portIn (otherPort p)) = true)
    (harb : arbiter s.arbCount = otherPort p) :
    (∃ t, step s = .next t ∧ Waits p s t) ∨ ∃ r, step s = .refused r := by
  obtain ⟨r, hquiet, hf⟩ := fetch_of_both hr hp ho
  rw [harb] at hf
  have hport : { s with resetIn := r, arbCount := s.arbCount + 1 }.portIn (otherPort p) =
      s.portIn (otherPort p) := by cases p <;> rfl
  rcases decode_of_portReady ho with ⟨j, rest, hd⟩ | ⟨op, hd⟩ <;> rw [← hport] at hd
  · by_cases hj : j.port = otherPort p
    · rw [← hj] at hd hf
      obtain ⟨t, ht⟩ := exec_next j
        ({ s with resetIn := r, arbCount := s.arbCount + 1 }.setPortIn j.port rest)
      have hout := exec_outside ht
      refine .inl ⟨t, (step_of_command (hf.trans (serve_of_command hd rfl))).trans ht, ?_, ?_, ?_⟩
      · rw [exec_portIn ht, hj]; cases p <;> rfl
      · rw [State.resetQuiet, show t.resetIn = r from (congrArg OutsideView.resetIn hout).trans
          (State.setPortIn_resetIn _ _ _)]
        exact hquiet
      · exact (congrArg OutsideView.arbCount hout).trans (State.setPortIn_arbCount _ _ _)
    · exact .inr ⟨_, step_of_refused (hf.trans (serve_of_wrongPort hd hj))⟩
  · exact .inr ⟨_, step_of_refused (hf.trans (serve_of_reserved hd))⟩

/-- A command pending at its own port, `d` decisions before the arbiter names that port, is found after at
most `d` steps, or the run is refused in at most `d` steps. -/
theorem exists_fetch_of_pending {i : Instr} {rest : List Byte} (d : Nat) (s : State) (hr : s.resetQuiet)
    (hd : decode (s.portIn i.port) = .ok (i, rest)) (harb : arbiter (s.arbCount + d) = i.port) :
    ∃ k, k ≤ d ∧
      ((∃ t u, stepAll k s = .next t ∧ t.portIn i.port = s.portIn i.port ∧ fetch t = .command i u ∧
          u.portIn i.port = rest) ∨
        ∃ r, stepAll k s = .refused r) := by
  induction d generalizing s with
  | zero =>
    obtain ⟨u, hf, hu⟩ := fetch_of_served_command hr hd ⟨portReady_of_ok hd, .inr harb⟩
    exact ⟨0, Nat.le_refl _, .inl ⟨s, u, rfl, rfl, hf, hu⟩⟩
  | succ d ih =>
    have hp := portReady_of_ok hd
    by_cases hserved : Served s i.port
    · obtain ⟨u, hf, hu⟩ := fetch_of_served_command hr hd hserved
      exact ⟨0, Nat.zero_le _, .inl ⟨s, u, rfl, rfl, hf, hu⟩⟩
    · have hother : portReady (s.portIn (otherPort i.port)) = true :=
        Bool.eq_true_of_not_eq_false fun ho => hserved ⟨hp, .inl ho⟩
      have hchosen : arbiter s.arbCount = otherPort i.port :=
        eq_otherPort_of_ne fun h => hserved ⟨hp, .inr h⟩
      rcases step_of_other_chosen hr hp hother hchosen with
        ⟨t, ht, hport, hquiet, hcount⟩ | ⟨r, hrefused⟩
      · have harb' : arbiter (t.arbCount + d) = i.port := by
          rw [hcount, Nat.add_right_comm]; exact harb
        obtain ⟨k, hk, hfound⟩ := ih t hquiet (hport ▸ hd) harb'
        rw [← stepAll_of_next ht, hport] at hfound
        exact ⟨k + 1, Nat.succ_le_succ hk, hfound⟩
      · exact ⟨1, Nat.succ_le_succ (Nat.zero_le _), .inr ⟨r, stepAll_of_refused hrefused⟩⟩

/-- Settles O60: the run of the present decision ends, and the next decision is the other port's, so the
bound is what is left of the run and one. -/
theorem pendingCommandExecutesAfterFinitelyManyOthers :
    Obligations.PendingCommandExecutesAfterFinitelyManyOthers := by
  refine ⟨fun n => (turn n).left + 1, ?_⟩
  rintro s _ i rest hr hd rfl
  obtain ⟨d, hle, harb⟩ := turnAt_fair Config.arbiterFirst Config.arbiterRun s.arbCount i.port
  obtain ⟨k, hk, hfound⟩ := exists_fetch_of_pending d s hr hd harb
  exact ⟨k, hk.trans hle, hfound⟩

end Sys2Proof.Machine
